-- ==== Sys2Proof/Word.lean ====
section
/-! DEFINITION. The two word types of the hardware: a byte of the code buffer (spec/00_scope.md R7,
"Code-buffer byte size") and a 32-bit cell of the register file or of data memory (R7 `XLEN`,
`CELL_BITS`). Every quantity is unsigned (R9, spec/43_bitreverse.md R132). -/

namespace Sys2Proof

/-- A register or a data-memory cell: 32 bits, unsigned (R7, R21, R35). -/
abbrev Word := BitVec 32

/-- One byte of the code buffer (R7, R40). -/
abbrev Byte := BitVec 8

end Sys2Proof
end

