-- ==== Sys2Proof/Config.lean ====
section
/-! DEFINITION. The fixed parameters of the hardware (spec/00_scope.md R7: "None is configurable").
The parameters the spec leaves open (R8: `code`, `CODE_LEN`, `PC_WIDTH`) are no constants: the code
buffer and its length stand in the state, and the program counter is a natural number. Nothing else
is left open (spec/40_sequencer.md R99), so this file has no free value. -/

namespace Sys2Proof.Config

/-- `NREGS`, the number of registers (R7). -/
abbrev numRegs : Nat := 32

/-- `MEM_CELLS`, the number of data-memory cells (R7). -/
abbrev memCells : Nat := 1024

/-- What a data-memory cell that no instruction has written reads as: the reset content, 0
(spec/10_state.md R34, spec/20_memory.md R47). -/
abbrev resetCell : Word := 0

/-- The length in bytes of the longest instruction (R7, "Instruction lengths"). -/
abbrev maxSize : Nat := 4

end Sys2Proof.Config
end

