-- ==== Sys2Proof/Syntax.lean ====
section
/-! DEFINITION. The instructions: the closed list of four (spec/30_encoding.md R61), one constructor per
row of spec/opcode_table.json, the widths of their operand fields, the instruction record of the
toolchain (a mnemonic and two integers), and the names of the three faults. -/

namespace Sys2Proof

/-- The index of a register, 0 to 31: every value a 5-bit field can hold is legal
(spec/10_state.md R22, spec/30_encoding.md R72). -/
abbrev RegIx := Fin Config.numRegs

/-- The four mnemonics of the Instruction Catalog (R61). -/
inductive Mnemonic where
  | loadConst
  | readMem
  | writeMem
  | bitReverse
deriving DecidableEq, Repr

/-- The width in bits of operand field B (R61, R67). -/
def Mnemonic.widthB : Mnemonic → Nat
  | .loadConst => 22
  | .readMem => 17
  | .writeMem => 5
  | .bitReverse => 5

/-- The width in bits of operand field C (R61, R67): 5 in every row. -/
def Mnemonic.widthC : Mnemonic → Nat
  | .loadConst => 5
  | .readMem => 5
  | .writeMem => 5
  | .bitReverse => 5

/-- A decoded instruction, operands in the order B, C (R68). The unused bits above C carry no meaning
(R69) and are not kept. -/
inductive Instr where
  /-- LOAD_CONST: `b` the constant, `c` the destination register (R110). -/
  | loadConst (b : BitVec 22) (c : RegIx)
  /-- READ_MEM: `b` the cell address, `c` the destination register (R120). -/
  | readMem (b : BitVec 17) (c : RegIx)
  /-- WRITE_MEM: `b` the source register, `c` the cell address (R121). -/
  | writeMem (b : RegIx) (c : BitVec 5)
  /-- BITREVERSE: `b` the source register, `c` the destination register (R130). -/
  | bitReverse (b : RegIx) (c : RegIx)
deriving DecidableEq, Repr

/-- The mnemonic of an instruction: dispatch is on it and on nothing else (spec/40_sequencer.md R93). -/
def Instr.mnemonic : Instr → Mnemonic
  | .loadConst _ _ => .loadConst
  | .readMem _ _ => .readMem
  | .writeMem _ _ => .writeMem
  | .bitReverse _ _ => .bitReverse

/-- An instruction record of the toolchain: a mnemonic and two integers, which need not fit their fields
(the arguments of `Encode(mnemonic, B, C)`, R75). -/
structure Record where
  m : Mnemonic
  b : Nat
  c : Nat
deriving DecidableEq, Repr

/-- The record of an instruction: its operands as unsigned integers (R68). -/
def Instr.record : Instr → Record
  | .loadConst b c => ⟨.loadConst, b.toNat, c.val⟩
  | .readMem b c => ⟨.readMem, b.toNat, c.val⟩
  | .writeMem b c => ⟨.writeMem, b.val, c.toNat⟩
  | .bitReverse b c => ⟨.bitReverse, b.val, c.val⟩

/-- The three faults the hardware raises (spec/60_exceptions.md R140). -/
inductive FaultKind where
  /-- The low nibble of the byte at `pc` is no opcode (R141); raised by the decoder. -/
  | unknownOpcode
  /-- Fewer bytes remain than the opcode's length (R142); raised by the decoder. -/
  | truncatedInstruction
  /-- READ_MEM's address is 1024 or more (R143); raised at execution. -/
  | addressOutOfRange
deriving DecidableEq, Repr

end Sys2Proof
end

