-- ==== Sys2Proof/WellFormed.lean ====
section
/-! DEFINITION. Which instruction records are well formed: each operand fits its field
(spec/30_encoding.md R72, R77). A decoded `Instr` cannot be ill formed, since its operands have the
widths of their fields (R72: "Every value of every field of a legal opcode decodes without a fault");
`Instr.wellFormed` is the same check on its record. -/

namespace Sys2Proof

/-- Operand B fits its field. -/
def Record.fitsB (r : Record) : Bool := decide (r.b < 2 ^ r.m.widthB)

/-- Operand C fits its field. -/
def Record.fitsC (r : Record) : Bool := decide (r.c < 2 ^ r.m.widthC)

/-- Both operands fit: the domain of the round trip R77. -/
def Record.wellFormed (r : Record) : Bool := r.fitsB && r.fitsC

/-- The check on a decoded instruction. -/
def Instr.wellFormed (i : Instr) : Bool := i.record.wellFormed

end Sys2Proof
end

