-- ==== Sys2Proof/Decode.lean ====
section
/-! DEFINITION. The Instruction Catalog's opcodes and lengths (spec/30_encoding.md R61), the decoder as one
function (R73) and the encoder (R75), from the encoding of R60 to R67. -/

namespace Sys2Proof

/-- The opcode, `w[3:0]` (R61). -/
def Mnemonic.opcode : Mnemonic → Nat
  | .loadConst => 12
  | .readMem => 10
  | .writeMem => 7
  | .bitReverse => 1

/-- The length in bytes, fixed by the opcode alone (R61, R62). -/
def Mnemonic.size : Mnemonic → Nat
  | .loadConst => 4
  | .readMem => 4
  | .writeMem => 2
  | .bitReverse => 2

/-- The length in bytes of an instruction (R62). -/
def Instr.size (i : Instr) : Nat := i.mnemonic.size

/-- The map of the opcode nibble (R70): four values select an instruction, the other twelve are illegal. -/
def mnemonicOf (op : Nat) : Option Mnemonic :=
  match op with
  | 12 => some .loadConst
  | 10 => some .readMem
  | 7 => some .writeMem
  | 1 => some .bitReverse
  | _ => none

/-- `code[k][3:0]`, the low nibble of a byte (R62). -/
def lowNibble (b : Byte) : Nat := b.toNat % 16

/-- The little-endian unsigned value of a byte string, the first byte least significant
(spec/20_memory.md R44). -/
def leValue : List Byte → Nat
  | [] => 0
  | b :: bs => b.toNat + 2 ^ 8 * leValue bs

/-- `CodeRead(k, n)` (spec/00_scope.md R10): the little-endian value of `n` bytes at offset `k`, asked only
when all of them exist. -/
def codeRead (code : List Byte) (k n : Nat) : Nat := leValue ((code.drop k).take n)

/-- `B = (w >> 4) & (2^wB - 1)` (R67). -/
def operandB (m : Mnemonic) (w : Nat) : Nat := (w >>> 4) &&& (2 ^ m.widthB - 1)

/-- `C = (w >> (4 + wB)) & (2^wC - 1)` (R67). -/
def operandC (m : Mnemonic) (w : Nat) : Nat := (w >>> (4 + m.widthB)) &&& (2 ^ m.widthC - 1)

/-- The instruction of a mnemonic and two operands, each cut to its field's width. -/
def Record.instr (r : Record) : Instr :=
  match r.m with
  | .loadConst => .loadConst (BitVec.ofNat 22 r.b) (Fin.ofNat Config.numRegs r.c)
  | .readMem => .readMem (BitVec.ofNat 17 r.b) (Fin.ofNat Config.numRegs r.c)
  | .writeMem => .writeMem (Fin.ofNat Config.numRegs r.b) (BitVec.ofNat 5 r.c)
  | .bitReverse => .bitReverse (Fin.ofNat Config.numRegs r.b) (Fin.ofNat Config.numRegs r.c)

/-- The instruction that mnemonic `m` and instruction word `w` stand for (R67, R68). -/
def instrOfWord (m : Mnemonic) (w : Nat) : Instr :=
  (Record.mk m (operandB m w) (operandC m w)).instr

/-- What the decoder answers at an offset. -/
inductive Decoded where
  /-- An instruction and its length in bytes. -/
  | instr (i : Instr) (size : Nat)
  /-- A decode fault (R70, R71). -/
  | fault (k : FaultKind)
  /-- There is no byte at the offset: outside the domain of R73, where the sequencer does not decode
  (R71, spec/40_sequencer.md R92). -/
  | endOfBuffer
deriving DecidableEq, Repr

/-- `Decode(k)` (R73): the opcode is checked first, then the remaining length (spec/60_exceptions.md R145).
It reads no byte at or beyond `CODE_LEN` (R71, spec/92_eei_decisions.md D20). -/
def decodeAt (code : List Byte) (k : Nat) : Decoded :=
  match code[k]? with
  | none => .endOfBuffer
  | some b0 =>
    match mnemonicOf (lowNibble b0) with
    | none => .fault .unknownOpcode
    | some m =>
      if code.length - k < m.size then .fault .truncatedInstruction
      else .instr (instrOfWord m (codeRead code k m.size)) m.size

/-- The low `n` bytes of `w`, least significant first (R75: "w[7:0], w[15:8], ... in that order"). -/
def bytesLE : Nat → Nat → List Byte
  | 0, _ => []
  | n + 1, w => BitVec.ofNat 8 w :: bytesLE n (w / 2 ^ 8)

/-- The word `Encode` builds: opcode, then B, then C above it, each masked to its width (R75), so that an
operand that does not fit is silently truncated (R76) and every unused bit is 0 (R69). -/
def encodeWord (r : Record) : Nat :=
  r.m.opcode ||| ((r.b &&& (2 ^ r.m.widthB - 1)) <<< 4)
    ||| ((r.c &&& (2 ^ r.m.widthC - 1)) <<< (4 + r.m.widthB))

/-- `Encode(m, B, C)` for a mnemonic of the catalog (R75). -/
def Record.encode (r : Record) : List Byte := bytesLE r.m.size (encodeWord r)

/-- The bytes of an instruction. -/
def encode (i : Instr) : List Byte := i.record.encode

/-- The bytes of one opcode-table word: the table numbers bits from the least significant bit of the word
read little-endian (R81), and the bits above `nbits` are 0. -/
def tableBytes (nbits w : Nat) : List Byte :=
  bytesLE (max Config.maxSize (nbits / 8)) (w % 2 ^ nbits)

/-- The instruction the decoder reads from an instruction whose bits are `w`. -/
def decodeTableWord (nbits w : Nat) : Option Instr :=
  match decodeAt (tableBytes nbits w) 0 with
  | .instr i _ => some i
  | .fault _ => none
  | .endOfBuffer => none

end Sys2Proof
end

