-- ==== Sys2Proof/Machine/State.lean ====
section
/-! DEFINITION. The architectural state (spec/10_state.md R20), its reset value (R34), and the ways a step
can stop. -/

namespace Sys2Proof.Machine

/-- A recorded fault: its kind and the byte offset of the faulting instruction (R32). -/
structure FaultRecord where
  kind : FaultKind
  offset : Nat
deriving DecidableEq, Repr

/-- The data memory as plain data: (cell address, 32-bit cell) pairs. The hardware's smallest addressable
unit is the 32-bit cell and it has no byte order (spec/20_memory.md R42, R45), so the entries are cells.
DESIGN CHOICE, safe: notes/assumptions/5.md. -/
abbrev Memory := List (Nat × Word)

/-- The whole state (R20), with the run's code buffer beside it (R36). -/
structure State where
  /-- The register file `x[0..31]` (R21). -/
  regs : Vector Word Config.numRegs
  /-- The data memory `M[0..1023]` (R35): rising addresses, no cell of value 0 listed. -/
  mem : Memory
  /-- The program counter, a byte offset into the code buffer (R25). An unbounded natural number, as R8
  allows. DESIGN CHOICE, safe: notes/assumptions/2.md. -/
  pc : Nat
  /-- The fault record (R32). -/
  fault : Option FaultRecord
  /-- The code buffer (R36), the parameter of the run: no step changes it. DESIGN CHOICE, safe:
  notes/assumptions/1.md. -/
  code : List Byte
deriving DecidableEq, Repr

/-- Why a step stops. Both stand for a terminal run status, in which the spec defines no step
(spec/40_sequencer.md R92); no instruction's meaning raises one. DEDUCED, safe: notes/assumptions/3.md. -/
inductive Fault where
  /-- Raised by `step` in the status halted: the code buffer is exhausted and no fault is recorded
  (R31, R95). Safe: the spec defines no step here. -/
  | halted
  /-- Raised by `step` in the status faulted; it surfaces the fault record to the host
  (spec/60_exceptions.md R148). Safe: the spec defines no step here. -/
  | faulted (record : FaultRecord)
deriving DecidableEq, Repr

/-- Why a step refuses an instruction. -/
inductive Refusal where
  /-- An instruction with no meaning yet, raised by an arm of `exec`. Safe. No arm raises it: all four
  instructions have their meaning. -/
  | notModelled (mnemonic : String)
deriving DecidableEq, Repr

/-- The machine right after reset (R34, spec/70_reset_and_hazards.md R170): every register and cell 0, `pc`
0, no fault. No program is loaded: the code buffer is the host's (R172), notes/assumptions/6.md. -/
def State.reset : State where
  regs := Vector.replicate Config.numRegs 0
  mem := []
  pc := 0
  fault := none
  code := []

/-- `CODE_LEN`, the length of the code buffer in bytes (spec/00_scope.md R8). -/
abbrev State.codeLen (s : State) : Nat := s.code.length

end Sys2Proof.Machine
end

