-- ==== Sys2Proof/Machine/Ops.lean ====
section
/-! DEFINITION. The named operations over registers, data memory and the program counter
(spec/00_scope.md R10), the fetch, and the taking of a fault. There is no return from a fault
(spec/60_exceptions.md R150): the way out is reset, Sys2Proof/Machine/HostPort.lean. -/

namespace Sys2Proof.Machine

/-- `x[i]` (R10). Every index is an ordinary register (spec/10_state.md R22). -/
def State.readReg (s : State) (i : RegIx) : Word := s.regs[i]

/-- `x[i] <- v` (R10). -/
def State.writeReg (s : State) (i : RegIx) (v : Word) : State :=
  { s with regs := s.regs.set i v }

/-- `pc <- pc + size` (spec/40_sequencer.md R94). -/
def State.advance (s : State) (size : Nat) : State := { s with pc := s.pc + size }

/-- The cell at an address of a memory; an unlisted cell holds its reset content. -/
def Memory.read : Memory → Nat → Word
  | [], _ => Config.resetCell
  | (k, v) :: m, a => if k = a then v else Memory.read m a

/-- The listing of one cell: nothing where its value is the reset content. -/
def Memory.entry (a : Nat) (v : Word) : Memory := if v = Config.resetCell then [] else [(a, v)]

/-- The memory with one cell replaced, in canonical form. -/
def Memory.write : Memory → Nat → Word → Memory
  | [], a, v => Memory.entry a v
  | (k, u) :: m, a, v =>
    if a < k then Memory.entry a v ++ (k, u) :: m
    else if a = k then Memory.entry a v ++ m
    else (k, u) :: Memory.write m a v

/-- The canonical form: addresses strictly rising, every one a cell that exists, and no cell listed that
holds its reset content. -/
abbrev Memory.wf (m : Memory) : Prop :=
  m.Pairwise (fun p q => p.1 < q.1) ∧ ∀ p ∈ m, p.1 < Config.memCells ∧ p.2 ≠ Config.resetCell

/-- `M[a]` (R10). -/
def State.cell (s : State) (a : Nat) : Word := Memory.read s.mem a

/-- `M[a] <- v` (R10). -/
def State.writeCell (s : State) (a : Nat) (v : Word) : State := { s with mem := Memory.write s.mem a v }

/-- `MemRead(a, 32)` (R10): the cell, or AddressOutOfRange where the address is 1024 or more
(spec/20_memory.md R42). -/
def State.memRead (s : State) (a : Nat) : Except FaultKind Word :=
  if a < Config.memCells then .ok (s.cell a) else .error .addressOutOfRange

/-- `MemWrite(a, 32, v)` (R10): the state with the cell replaced, or AddressOutOfRange. -/
def State.memWrite (s : State) (a : Nat) (v : Word) : Except FaultKind State :=
  if a < Config.memCells then .ok (s.writeCell a v)
  else .error .addressOutOfRange

/-- `raise K(pc)` (spec/60_exceptions.md R148): the fault record is written and nothing else. This is the
one operation every fault is taken by. -/
def State.raise (s : State) (k : FaultKind) : State := { s with fault := some ⟨k, s.pc⟩ }

/-- `Decode(pc)` (spec/40_sequencer.md R91): the fetch and decode of the instruction at `pc`. -/
def State.fetch (s : State) : Decoded := decodeAt s.code s.pc

/-- The byte string `bs` laid over `code` from offset `k` on; offsets that `code` lacks before `k` are
filled with zero bytes. The host's placing of an instruction (notes/assumptions/6.md). -/
def overlay (code : List Byte) (k : Nat) (bs : List Byte) : List Byte :=
  code.take k ++ List.replicate (k - code.length) 0 ++ bs ++ code.drop (k + bs.length)

end Sys2Proof.Machine
end

