-- ==== Sys2Proof/Machine/Operands.lean ====
section
/-! DEFINITION. The operand forms (spec/30_encoding.md R68): a register index (its read is
`State.readReg`), the 22-bit constant, and the absolute cell addresses of READ_MEM and WRITE_MEM, the
one addressing mode (spec/42_memory_access.md R122); and `bitreverse32`, the one operation on values. -/

namespace Sys2Proof.Machine

/-- `zext_32(B)`, the constant of LOAD_CONST (spec/41_load_const.md R111; notes/assumptions/8.md). -/
def constantValue (b : BitVec 22) : Word := b.setWidth 32

/-- The effective address of READ_MEM, its field B (R122). -/
def readAddress (b : BitVec 17) : Nat := b.toNat

/-- The effective address of WRITE_MEM, its field C (R122). -/
def writeAddress (c : BitVec 5) : Nat := c.toNat

/-- The low `n` bits of `v` in reverse order: the lowest bit goes to the top of the `n`, the others are
reversed below it. -/
def reverseBits : Nat → Nat → Nat
  | 0, _ => 0
  | n + 1, v => 2 ^ n * (v % 2) + reverseBits n (v / 2)

/-- `bitreverse32(v)` (spec/00_scope.md R10, spec/43_bitreverse.md R131): all 32 bits of `v` in reverse order.
Written as a sum of powers of 2 (R131 law 4), which evaluates quickly; that bit `i` of the result is bit
`31 - i` of `v` (law 1) is `bitreverse32_getLsbD` in Sys2Proof/Laws/Ops.lean. -/
def bitreverse32 (v : Word) : Word := BitVec.ofNat 32 (reverseBits 32 v.toNat)

end Sys2Proof.Machine
end

