-- ==== Sys2Proof/Machine/BitReverse.lean ====
section
/-! DEFINITION. Bit manipulation: BITREVERSE (spec/43_bitreverse.md). -/

namespace Sys2Proof.Machine

/-- BITREVERSE (R130): `v <- x[B]; x[C] <- bitreverse32(v); pc <- pc + 2`; the source is read first, so
`B = C` reverses the register in place (spec/70_reset_and_hazards.md R178). -/
def execBitReverse (b c : RegIx) (s : State) : Host.Outcome State Fault Refusal :=
  .next ((s.writeReg c (bitreverse32 (s.readReg b))).advance Mnemonic.bitReverse.size)

end Sys2Proof.Machine
end

