-- ==== Sys2Proof/Machine/LoadConst.lean ====
section
/-! DEFINITION. Constant load: LOAD_CONST (spec/41_load_const.md). -/

namespace Sys2Proof.Machine

/-- LOAD_CONST (R110): `x[C] <- zext_32(B); pc <- pc + 4`. -/
def execLoadConst (b : BitVec 22) (c : RegIx) (s : State) : Host.Outcome State Fault Refusal :=
  .next ((s.writeReg c (constantValue b)).advance Mnemonic.loadConst.size)

end Sys2Proof.Machine
end

