-- ==== Sys2Proof/Machine/MemoryAccess.lean ====
section
/-! DEFINITION. Memory access: READ_MEM and WRITE_MEM (spec/42_memory_access.md). A fault is taken as a
next state (spec/60_exceptions.md R148; notes/assumptions/4.md). -/

namespace Sys2Proof.Machine

/-- READ_MEM (R120): `x[C] <- MemRead(B, 32); pc <- pc + 4`, or the fault AddressOutOfRange, raised before
any write. -/
def execReadMem (b : BitVec 17) (c : RegIx) (s : State) : Host.Outcome State Fault Refusal :=
  match s.memRead (readAddress b) with
  | .error k => .next (s.raise k)
  | .ok v => .next ((s.writeReg c v).advance Mnemonic.readMem.size)

/-- WRITE_MEM (R121): `MemWrite(C, 32, x[B]); pc <- pc + 2`; the range check cannot fail, since `C <= 31`. -/
def execWriteMem (b : RegIx) (c : BitVec 5) (s : State) : Host.Outcome State Fault Refusal :=
  match s.memWrite (writeAddress c) (s.readReg b) with
  | .error k => .next (s.raise k)
  | .ok t => .next (t.advance Mnemonic.writeMem.size)

end Sys2Proof.Machine
end

