-- ==== Sys2Proof/Machine/Dispatch.lean ====
section
/-! DEFINITION. Dispatch on the mnemonic (spec/40_sequencer.md R93). -/

namespace Sys2Proof.Machine

-- The effect of one instruction, its own advance of pc included (R91, R94).
def exec (i : Instr) (s : State) : Host.Outcome State Fault Refusal :=
  match i with
  | .loadConst b c => Sys2Proof.Machine.execLoadConst b c s
  | .readMem b c => Sys2Proof.Machine.execReadMem b c s
  | .writeMem b c => Sys2Proof.Machine.execWriteMem b c s
  | .bitReverse b c => Sys2Proof.Machine.execBitReverse b c s

end Sys2Proof.Machine
end

