-- ==== Sys2Proof/Machine/Flags.lean ====
section
/-! DEFINITION. The hardware has no flags, condition codes or predicates (spec/10_state.md R29) and no
status register a program can reach (R30), so there is no flag computation. Its one status is the run
status, a function of the state that the host sees (R31). -/

namespace Sys2Proof.Machine

/-- The three run statuses (R31, spec/90_conflicts.md C3). -/
inductive RunStatus where
  | running
  | halted
  | faulted
deriving DecidableEq, Repr

/-- The run status as a function of `fault`, `pc` and `CODE_LEN` (R31). -/
def State.status (s : State) : RunStatus :=
  match s.fault with
  | some _ => .faulted
  | none => if s.pc < s.codeLen then .running else .halted

end Sys2Proof.Machine
end

