-- ==== Sys2Proof/Machine/Step.lean ====
section
/-! DEFINITION. One step of the execution sequencer (spec/40_sequencer.md R91, R92). -/

namespace Sys2Proof.Machine

/-- One pass of the loop of R92, its test included: with no fault recorded and a byte at `pc`, decode and
execute, or take the decode fault (R91); in a terminal status no step is defined, and the step stops by
name (notes/assumptions/3.md). -/
def step (s : State) : Host.Outcome State Fault Refusal :=
  match s.fault with
  | some r => .fault (.faulted r)
  | none =>
    match s.fetch with
    | .instr i _ => exec i s
    | .fault k => .next (s.raise k)
    | .endOfBuffer => .fault .halted

/-- The state with one opcode-table word placed at `pc`, where the next step fetches, and running: the
host's load of that instruction (spec/70_reset_and_hazards.md R173; notes/assumptions/6.md). -/
def State.withFetchWord (s : State) (nbits w : Nat) : State :=
  { s with code := overlay s.code s.pc (tableBytes nbits w), fault := none }

end Sys2Proof.Machine
end

