-- ==== Sys2Proof/Machine/Assembler.lean ====
section
/-! DEFINITION. The toolchain's assembly text (spec/30_encoding.md R78, R79), as far as the spec gives it: a
text to the bytes of its instructions. It is no part of the hardware (spec/00_scope.md R5). What the spec
does not say (spec/91_not_in_source.md N9) is refused by name, not guessed (notes/assumptions/14.md). -/

namespace Sys2Proof.Machine

/-- What stops the assembler; each carries the number of the source line, counted from 1. -/
inductive AsmError where
  /-- The line's first token is no mnemonic of the catalog (R78, spec/60_exceptions.md R147). -/
  | unknownMnemonic (line : Nat)
  /-- The line has a form the spec does not give: an operand count other than two, or an operand that is
  no unsigned decimal number (R78, N9; spec/92_eei_decisions.md D14). -/
  | formNotGiven (line : Nat)
deriving DecidableEq, Repr

/-- A mnemonic's spelling: upper case with an underscore (R78). -/
def mnemonicText : Mnemonic → List Char
  | .loadConst => "LOAD_CONST".toList
  | .readMem => "READ_MEM".toList
  | .writeMem => "WRITE_MEM".toList
  | .bitReverse => "BITREVERSE".toList

/-- The catalog's lookup by spelling; `none` is the failure UnknownMnemonic (R75, R78). -/
def mnemonicOfText (t : List Char) : Option Mnemonic :=
  if t = mnemonicText .loadConst then some .loadConst
  else if t = mnemonicText .readMem then some .readMem
  else if t = mnemonicText .writeMem then some .writeMem
  else if t = mnemonicText .bitReverse then some .bitReverse
  else none

/-- The digits of an unsigned decimal number, the most significant first, above the value read so far. -/
def decimalDigits : List Char → Nat → Option Nat
  | [], n => some n
  | c :: cs, n =>
    if 48 ≤ c.toNat ∧ c.toNat ≤ 57 then decimalDigits cs (10 * n + (c.toNat - 48)) else none

/-- An operand token as an unsigned decimal number (D14). -/
def decimal (t : List Char) : Option Nat := if t = [] then none else decimalDigits t 0

/-- The line without its comment: `;` begins one that extends to the end of the line (R78). -/
def withoutComment : List Char → List Char
  | [] => []
  | c :: cs => if c = ';' then [] else c :: withoutComment cs

/-- Commas and white space separate tokens (R78). -/
def isSeparator (c : Char) : Bool := c = ',' || c = ' ' || c = '\t' || c = '\r'

/-- A token that has characters. -/
def nonEmptyToken (t : List Char) : List (List Char) := if t = [] then [] else [t]

/-- The tokens of a line, `cur` being the characters of the token under way. -/
def tokensFrom : List Char → List Char → List (List Char)
  | [], cur => nonEmptyToken cur
  | c :: cs, cur =>
    if isSeparator c then nonEmptyToken cur ++ tokensFrom cs [] else tokensFrom cs (cur ++ [c])

/-- The lines of a text, `cur` being the line under way. -/
def linesFrom : List Char → List Char → List (List Char)
  | [], cur => [cur]
  | c :: cs, cur => if c = '\n' then cur :: linesFrom cs [] else linesFrom cs (cur ++ [c])

/-- The bytes of the tokens of one line: none for a blank line; else the mnemonic and its operands, B first
and C second (R79). -/
def assembleTokens (line : Nat) : List (List Char) → Except AsmError (List Byte)
  | [] => .ok []
  | t :: ops =>
    match mnemonicOfText t with
    | none => .error (.unknownMnemonic line)
    | some m =>
      match ops with
      | [tb, tc] =>
        match decimal tb, decimal tc with
        | some b, some c => .ok (Record.mk m b c).encode
        | _, _ => .error (.formNotGiven line)
      | _ => .error (.formNotGiven line)

/-- The bytes of the lines from number `line` on; the first line that fails stops the assembler. -/
def assembleLines (line : Nat) : List (List Char) → Except AsmError (List Byte)
  | [] => .ok []
  | l :: ls =>
    match assembleTokens line (tokensFrom (withoutComment l) []) with
    | .error e => .error e
    | .ok bs =>
      match assembleLines (line + 1) ls with
      | .error e => .error e
      | .ok rest => .ok (bs ++ rest)

/-- The code buffer of an assembly text: the bytes of its instructions in order, with no header and no
padding (spec/20_memory.md R41). -/
def assemble (text : List Char) : Except AsmError (List Byte) := assembleLines 1 (linesFrom text [])

end Sys2Proof.Machine
end

