-- ==== Sys2Proof/Machine/HostPort.lean ====
section
/-! DEFINITION. What the host may do before and after a run (spec/70_reset_and_hazards.md R171 to R176).
None of these is a step: the host has no move during a run (R173; notes/assumptions/15.md). -/

namespace Sys2Proof.Machine

/-- Load: the host places the whole program and its length, before reset is released (R172, R173). -/
def State.load (s : State) (code : List Byte) : State := { s with code := code }

/-- Reset, asserted at any time: the state is discarded and the state of R34 given; the loaded program is
the host's and stays (R171, R173 "restart"; notes/assumptions/17.md). -/
def State.restart (s : State) : State := State.reset.load s.code

/-- The state in which a run of `code` starts (R170, R172). -/
def boot (code : List Byte) : State := State.reset.load code

/-- The number of a fault for a host port, 0 for none (spec/60_exceptions.md R155;
notes/assumptions/12.md). -/
def faultCode : Option FaultKind → Nat
  | none => 0
  | some .unknownOpcode => 1
  | some .truncatedInstruction => 2
  | some .addressOutOfRange => 3

/-- The number a status port shows for a state. -/
def State.faultCode (s : State) : Nat := Machine.faultCode (s.fault.map FaultRecord.kind)

/-- The content of the memory dump for the half-open range `[lo, hi)`, clamped to `[0, 1024)` (R176). -/
def State.dump (s : State) (lo hi : Int) : List (Nat × Word) :=
  ((List.range Config.memCells).filter fun a : Nat => decide (lo ≤ (a : Int)) && decide ((a : Int) < hi)).map
    fun a => (a, s.cell a)

end Sys2Proof.Machine
end

