-- ==== Sys2Proof/Safety.lean ====
section
/-! DEFINITION. What claims about runs speak of: the invariant of every state a run reaches, and the safe
end of a run. -/

namespace Sys2Proof.Machine

/-- A value a program can make (spec/41_load_const.md R112): 0 to `0x3FFFFF`, and the reversals of those. -/
def Makeable (v : Word) : Prop := v.toNat < 2 ^ 22 ∨ (bitreverse32 v).toNat < 2 ^ 22

/-- The part of the invariant about the program counter and the fault record: `pc` never passes
`CODE_LEN` (spec/10_state.md R27), and a recorded fault names the instruction `pc` stays at
(spec/60_exceptions.md R149), which lies inside the buffer (spec/40_sequencer.md R95). -/
structure State.PcInv (s : State) : Prop where
  pc_le : s.pc ≤ s.codeLen
  fault_at_pc : ∀ r, s.fault = some r → r.offset = s.pc ∧ s.pc < s.codeLen

/-- The part of the invariant about values: every register and every cell holds a makeable value (R112). -/
structure State.ValueInv (s : State) : Prop where
  regs_makeable : ∀ i, Makeable (s.readReg i)
  cells_makeable : ∀ a, Makeable (s.cell a)

/-- The cells WRITE_MEM cannot reach hold 0 (spec/20_memory.md R50). -/
def State.HighCellsZero (s : State) : Prop := ∀ a, 32 ≤ a → s.cell a = 0

/-- The safe end of a run: halted, every instruction executed and no fault recorded
(spec/40_sequencer.md R95(a)). A faulted run is not safe (spec/90_conflicts.md C3). -/
def State.Completed (s : State) : Prop := s.status = .halted

/-- `k` steps from `s`, stopping at the first stop (R92): what `Host.Core.run` answers for this machine
(Sys2Proof/Laws/Run.lean). -/
def runSteps : Nat → State → Host.Outcome State Fault Refusal
  | 0, s => .next s
  | k + 1, s =>
    match step s with
    | .next t => runSteps k t
    | .fault r => .fault r
    | .refused r => .refused r

/-- A run from `s` is over after `k` completed steps, in `t`: no further step is defined (R92). -/
def EndsAfter (s : State) (k : Nat) (t : State) : Prop :=
  runSteps k s = .next t ∧ t.status ≠ .running

/-- The effect of a list of instructions, one after the other; `none` where one does not answer a next
state. -/
def execList : List Instr → State → Option State
  | [], s => some s
  | i :: is, s =>
    match exec i s with
    | .next t => execList is t
    | .fault _ => none
    | .refused _ => none

/-- `is` are the instructions that stand in the code buffer from `s.pc` on, one directly after the other, and
executing each once, in order and without a fault leads from `s` to `t` (spec/40_sequencer.md R95). -/
def StraightLine : State → List Instr → State → Prop
  | s, [], t => t = s
  | s, i :: is, t =>
    decodeAt s.code s.pc = .instr i i.size ∧
      ∃ u, exec i s = .next u ∧ u.fault = none ∧ u.pc = s.pc + i.size ∧ StraightLine u is t

/-- `is` are the instructions that stand in `code` from offset `k` to its end, one directly after the other
(spec/20_memory.md R41). -/
def Parses (code : List Byte) : Nat → List Instr → Prop
  | k, [] => k = code.length
  | k, i :: is => decodeAt code k = .instr i i.size ∧ Parses code (k + i.size) is

/-- The instruction cannot fault at execution: the address of a READ_MEM exists (spec/60_exceptions.md R143,
R144). -/
def AddressExists : Instr → Prop
  | .loadConst _ _ => True
  | .readMem b _ => readAddress b < Config.memCells
  | .writeMem _ _ => True
  | .bitReverse _ _ => True

end Sys2Proof.Machine
end

