-- ==== Sys2Proof/Certificates/Slice0/Obligations.lean ====
section
/-! DEFINITION. The statements for the provers, each from the rules of spec/ its docstring names. A
statement that rests on a decision or an inference the spec marks as its own, or on a choice of the model,
says so and names the log entry. -/

open Sys2Proof Sys2Proof.Machine

/-! ### Reset -/

/-- In the state in which a run of `code` starts every register and cell is 0, `pc` is 0, no fault is
recorded (the spec's decision D4), and the run is halted at once where the buffer is empty (the spec's
decision D3, log 10) and running otherwise. `State.reset` is that state for the empty buffer, the model's
choice (log 1). -/
def Obligations.ResetClearsRegistersMemoryPcAndFault : Prop :=
  State.reset = boot [] ∧
  ∀ code : List Byte,
    (∀ i, (boot code).readReg i = 0) ∧ (∀ a, (boot code).cell a = 0) ∧ (boot code).pc = 0 ∧
    (boot code).fault = none ∧ (boot code).code = code ∧
    (boot code).status = if code.length = 0 then .halted else .running

/-- Reset asserted in any state leads to the state in which a run of the loaded program starts; nothing
else of the old state survives (the spec's decision D10, log 17). -/
def Obligations.RestartDiscardsTheWholeState : Prop :=
  ∀ s : State, s.restart = boot s.code ∧
    ∀ s' : State, s'.code = s.code → s'.restart = s.restart

/-! ### The four instructions: effect, completion, frame, encoding -/

/-- LOAD_CONST answers, in every state, a next state in which `x[C]` is the number B and `pc` is 4 further, and
nothing else differs (41_load_const.md; that the register is B itself, zero-extended, for every 22-bit B is
the spec's decision D8, log 8). In a running state the 4 bytes of a word `w` with `w[3:0] = 12` and the
unused bit 0 are that instruction with `B = w[25:4]`, `C = w[30:26]`, wherever they stand. -/
def Obligations.LoadConstWritesTheConstant : Prop :=
  (∀ (b : BitVec 22) (c : RegIx) (s : State), ∃ t, exec (.loadConst b c) s = .next t ∧
    (t.readReg c).toNat = b.toNat ∧ (∀ r, r ≠ c → t.readReg r = s.readReg r) ∧
    (∀ a, t.cell a = s.cell a) ∧ t.pc = s.pc + 4 ∧ t.fault = s.fault ∧ t.code = s.code) ∧
  ∀ (w : BitVec 32) (pre post : List Byte) (s : State), w.extractLsb' 0 4 = 12#4 →
    w.extractLsb' 31 1 = 0#1 →
    s.fault = none → s.code = pre ++ bytesLE 4 w.toNat ++ post → s.pc = pre.length →
    step s = exec (.loadConst (w.extractLsb' 4 22) (w.extractLsb' 26 5).toFin) s

/-- READ_MEM of a cell that exists answers a next state in which `x[C]` is `M[B]` and `pc` is 4
further, and nothing else differs; of an address of 1024 or more, the state with the fault
AddressOutOfRange recorded at `pc` and nothing else changed (42_memory_access.md; that the offset is the
instruction's is the spec's decision D6, log 9). In a running state the 4 bytes of a word `w` with
`w[3:0] = 10` and the unused bits 0 are that instruction with `B = w[20:4]`, `C = w[25:21]`, wherever they
stand. -/
def Obligations.ReadMemLoadsTheCellOrFaults : Prop :=
  (∀ (b : BitVec 17) (c : RegIx) (s : State), readAddress b = b.toNat ∧
    (readAddress b < 1024 → ∃ t, exec (.readMem b c) s = .next t ∧
      t.readReg c = s.cell (readAddress b) ∧ (∀ r, r ≠ c → t.readReg r = s.readReg r) ∧
      (∀ a, t.cell a = s.cell a) ∧ t.pc = s.pc + 4 ∧ t.fault = s.fault ∧ t.code = s.code) ∧
    (1024 ≤ readAddress b →
      exec (.readMem b c) s = .next { s with fault := some ⟨.addressOutOfRange, s.pc⟩ })) ∧
  ∀ (w : BitVec 32) (pre post : List Byte) (s : State), w.extractLsb' 0 4 = 10#4 →
    w.extractLsb' 26 6 = 0#6 →
    s.fault = none → s.code = pre ++ bytesLE 4 w.toNat ++ post → s.pc = pre.length →
    step s = exec (.readMem (w.extractLsb' 4 17) (w.extractLsb' 21 5).toFin) s

/-- R121. WRITE_MEM answers, from every state whose memory is canonical, a next state in which the cell at
its effective address, the field C, is `x[B]` and `pc` is 2 further; every other cell, every register and
the fault record are as before. In a running state the 2 bytes of a word `w` with `w[3:0] = 7` and the
unused bits 0 are that instruction with `B = w[8:4]`, `C = w[13:9]`, wherever they stand. -/
def Obligations.WriteMemStoresTheRegister : Prop :=
  (∀ (b : RegIx) (c : BitVec 5) (s : State), Memory.wf s.mem → ∃ t, exec (.writeMem b c) s = .next t ∧
    writeAddress c = c.toNat ∧ t.cell (writeAddress c) = s.readReg b ∧
    (∀ a, a ≠ writeAddress c → t.cell a = s.cell a) ∧ (∀ r, t.readReg r = s.readReg r) ∧
    t.pc = s.pc + 2 ∧ t.fault = s.fault ∧ t.code = s.code) ∧
  ∀ (w : BitVec 16) (pre post : List Byte) (s : State), w.extractLsb' 0 4 = 7#4 →
    w.extractLsb' 14 2 = 0#2 →
    s.fault = none → s.code = pre ++ bytesLE 2 w.toNat ++ post → s.pc = pre.length →
    step s = exec (.writeMem (w.extractLsb' 4 5).toFin (w.extractLsb' 9 5)) s

/-- R130. BITREVERSE answers, in every state, a next state in which bit `i` of `x[C]` is bit `31 - i` of the
old `x[B]`, the case `B = C` included, and `pc` is 2 further, and nothing else differs. In a running state
the 2 bytes of a word `w` with `w[3:0] = 1` and the unused bits 0 are that instruction with `B = w[8:4]`, `C = w[13:9]`,
wherever they stand. -/
def Obligations.BitReverseReversesAllBits : Prop :=
  (∀ (b c : RegIx) (s : State), ∃ t, exec (.bitReverse b c) s = .next t ∧
    (∀ i, i < 32 → (t.readReg c).getLsbD i = (s.readReg b).getLsbD (31 - i)) ∧
    (∀ r, r ≠ c → t.readReg r = s.readReg r) ∧ (∀ a, t.cell a = s.cell a) ∧
    t.pc = s.pc + 2 ∧ t.fault = s.fault ∧ t.code = s.code) ∧
  ∀ (w : BitVec 16) (pre post : List Byte) (s : State), w.extractLsb' 0 4 = 1#4 →
    w.extractLsb' 14 2 = 0#2 →
    s.fault = none → s.code = pre ++ bytesLE 2 w.toNat ++ post → s.pc = pre.length →
    step s = exec (.bitReverse (w.extractLsb' 4 5).toFin (w.extractLsb' 9 5).toFin) s

/-- The laws of `bitreverse32` (43_bitreverse.md): it is its own inverse, it fixes exactly the bit
palindromes, it takes `2^k` to `2^(31-k)` and an or of disjoint bits to the or of the reversals, and it is
a bijection. Laws 3 to 5 are inferences the spec marks as its own. -/
def Obligations.BitReversalIsAnInvolution : Prop :=
  (∀ v, bitreverse32 (bitreverse32 v) = v) ∧
  (∀ v, bitreverse32 v = v ↔ ∀ i, i < 32 → v.getLsbD i = v.getLsbD (31 - i)) ∧
  (∀ k, k < 32 → bitreverse32 (BitVec.ofNat 32 (2 ^ k)) = BitVec.ofNat 32 (2 ^ (31 - k))) ∧
  (∀ u v : Word, u &&& v = 0 → bitreverse32 (u ||| v) = bitreverse32 u ||| bitreverse32 v) ∧
  Function.Bijective bitreverse32

/-! ### One step of the sequencer -/

/-- A step is defined exactly in the status running. There it takes the decode fault at `pc`, or is `exec`
of the instruction decoded at `pc` and nothing besides; that instruction is well formed and its length is
that of its opcode. -/
def Obligations.StepRunsTheDecodedInstruction : Prop :=
  ∀ s : State, s.fault = none → s.pc < s.code.length →
    (∃ i n, decodeAt s.code s.pc = .instr i n ∧ n = i.size ∧ i.wellFormed = true ∧ step s = exec i s) ∨
    (∃ k, decodeAt s.code s.pc = .fault k ∧ step s = .next { s with fault := some ⟨k, s.pc⟩ })

/-- The run status decides what a step answers: a next state exactly when running; the named stop of the
status halted or faulted, the latter with the recorded fault, exactly there (the stop is the model's
form of "no step is defined", log 3); never a refusal. Exactly one status holds. -/
def Obligations.StepIsDefinedExactlyWhenRunning : Prop :=
  ∀ s : State,
    ((∃ t, step s = .next t) ↔ s.fault = none ∧ s.pc < s.code.length) ∧
    (step s = .fault .halted ↔ s.fault = none ∧ s.code.length ≤ s.pc) ∧
    (∀ r, step s = .fault (.faulted r) ↔ s.fault = some r) ∧
    (∀ r, step s ≠ .refused r) ∧
    (s.status = .running ↔ s.fault = none ∧ s.pc < s.code.length) ∧
    (s.status = .halted ↔ s.fault = none ∧ s.code.length ≤ s.pc) ∧
    (s.status = .faulted ↔ s.fault ≠ none)

/-- R26, R94. A step that records no fault moves `pc` by the length of the instruction executed: 4 for
LOAD_CONST and READ_MEM, 2 for WRITE_MEM and BITREVERSE; a step that faults leaves `pc`. -/
def Obligations.PcAdvancesByTheInstructionsLength : Prop :=
  ∀ s t : State, step s = .next t →
    (t.fault ≠ none → t.pc = s.pc) ∧
    (t.fault = none → ∃ i n, decodeAt s.code s.pc = .instr i n ∧ t.pc = s.pc + n ∧
      n = match i with
        | .loadConst _ _ => 4
        | .readMem _ _ => 4
        | .writeMem _ _ => 2
        | .bitReverse _ _ => 2)

/-- What a step may write (20_memory.md section 1; the table of 10_state.md section 2): never the code
buffer; data memory only by WRITE_MEM and only the cell at its effective address; a register only by
LOAD_CONST, READ_MEM and BITREVERSE and only the one named by C. -/
def Obligations.StepWritesOneRegisterOrOneCell : Prop :=
  ∀ s t : State, step s = .next t → Memory.wf s.mem →
    t.code = s.code ∧
    (∀ a, t.cell a ≠ s.cell a → ∃ b c, decodeAt s.code s.pc = .instr (.writeMem b c) 2 ∧
      a = writeAddress c ∧ t.regs = s.regs) ∧
    (∀ r, t.readReg r ≠ s.readReg r → t.mem = s.mem ∧
      ((∃ b, decodeAt s.code s.pc = .instr (.loadConst b r) 4) ∨
       (∃ b, decodeAt s.code s.pc = .instr (.readMem b r) 4) ∨
       (∃ b, decodeAt s.code s.pc = .instr (.bitReverse b r) 2)))

/-! ### Faults -/

/-- A byte at `pc` whose low nibble is none of the four opcodes is the fault UnknownOpcode at
`pc`, whatever its high nibble and whatever follows (60_exceptions.md section 1). That the step answers the
state with that fault recorded at `pc` and nothing else changed is the spec's decision D4, log 4. -/
def Obligations.IllegalNibbleIsUnknownOpcode : Prop :=
  ∀ (s : State) (b0 : Byte), s.fault = none → s.code[s.pc]? = some b0 →
    b0.toNat % 16 ∈ [0, 2, 3, 4, 5, 6, 8, 9, 11, 13, 14, 15] →
    step s = .next { s with fault := some ⟨.unknownOpcode, s.pc⟩ }

/-- A legal opcode with fewer bytes left than its length is the fault TruncatedInstruction at
`pc`: a 4-byte instruction with 1, 2 or 3 bytes left, a 2-byte instruction with 1 (60_exceptions.md section
1). That the step answers the state with that fault recorded at `pc` and nothing else changed is the spec's
decision D4, log 4. -/
def Obligations.CutShortInstructionIsTruncated : Prop :=
  ∀ (s : State) (b0 : Byte), s.fault = none → s.code[s.pc]? = some b0 →
    ((b0.toNat % 16 ∈ [12, 10] ∧ s.code.length - s.pc < 4) ∨
      (b0.toNat % 16 ∈ [7, 1] ∧ s.code.length - s.pc < 2)) →
    step s = .next { s with fault := some ⟨.truncatedInstruction, s.pc⟩ }

/-- In a running state at most one fault applies, and the checks come in this order: the opcode; the
remaining length, a cut-short READ_MEM of a large address included; then, for READ_MEM only, the address.
Where all pass no fault is recorded; after a fault no step is taken (60_exceptions.md section 2). That the
fault stands in the record of the state the step answers is the spec's decision D4, log 4; that no step then
answers a next state is the model's reading of "no step is defined", log 3. -/
def Obligations.FaultChecksComeInOrder : Prop :=
  ∀ (s : State) (b0 : Byte), s.fault = none → s.code[s.pc]? = some b0 →
    ∃ t, step s = .next t ∧ (t.fault ≠ none → ∀ u, step t ≠ .next u) ∧
      if b0.toNat % 16 ∉ [12, 10, 7, 1] then t.fault.map FaultRecord.kind = some .unknownOpcode
      else if s.code.length - s.pc < (if b0.toNat % 16 ∈ [12, 10] then 4 else 2) then
        t.fault.map FaultRecord.kind = some .truncatedInstruction
      else ∃ i, decodeAt s.code s.pc = .instr i i.size ∧
        (((∃ b c, i = .readMem b c ∧ 1024 ≤ readAddress b) ∧
            t.fault.map FaultRecord.kind = some .addressOutOfRange) ∨
         ((¬ ∃ b c, i = .readMem b c ∧ 1024 ≤ readAddress b) ∧ t.fault = none))

/-- A step that records a fault changes nothing else: registers, memory and `pc` are as they were, and the
recorded offset is `pc` (60_exceptions.md section 3; the fault record is the spec's decision D4, the offset
of AddressOutOfRange its decision D6, log 4 and log 9). -/
def Obligations.FaultingStepChangesOnlyTheFaultRecord : Prop :=
  ∀ s t : State, step s = .next t → ∀ r, t.fault = some r →
    s.fault = none ∧ r.offset = s.pc ∧ t = { s with fault := some r }

/-! ### Encoding -/

/-- Words written out from the spec's encoding decode to the instruction they stand for. -/
def Obligations.WrittenOutWordsDecode : Prop :=
  decodeAt [0x4C, 0x06, 0x00, 0x04] 0 = .instr (.loadConst 100 1) 4 ∧
  decodeAt [0x5A, 0x00, 0x40, 0x00] 0 = .instr (.readMem 5 2) 4 ∧
  decodeAt [0x17, 0x0A] 0 = .instr (.writeMem 1 5) 2 ∧
  decodeAt [0x21, 0x06] 0 = .instr (.bitReverse 2 3) 2

/-- R62. The low nibble of the first byte alone decides the length: 4 for 12 and 10, 2 for 7 and 1, and no
length, the fault UnknownOpcode, for any other. -/
def Obligations.OpcodeAloneDecidesTheLength : Prop :=
  ∀ (code : List Byte) (k : Nat) (b0 : Byte), code[k]? = some b0 →
    (∀ i n, decodeAt code k = .instr i n →
      n = if b0.toNat % 16 = 12 ∨ b0.toNat % 16 = 10 then 4 else 2) ∧
    (decodeAt code k = .fault .unknownOpcode ↔ b0.toNat % 16 ∉ [12, 10, 7, 1])

/-- R44. An instruction's word is read with the byte at the lowest offset least significant, and its bytes
are written in the same order. -/
def Obligations.FetchIsLittleEndian : Prop :=
  (∀ (code : List Byte) (k n : Nat), k + n ≤ code.length →
    codeRead code k n = ((List.range n).map fun i => (code.getD (k + i) 0).toNat * 2 ^ (8 * i)).sum) ∧
  (∀ n w : Nat, w < 2 ^ (8 * n) → codeRead (bytesLE n w) 0 n = w ∧
    ∀ i, i < n → ((bytesLE n w).getD i 0).toNat = w / 2 ^ (8 * i) % 2 ^ 8)

/-- R77. Round trip: for every mnemonic and all operands within their widths, decoding the encoded bytes
gives the mnemonic, the operands and the length back. Conversely, encoding what was decoded gives the bytes
back exactly when their unused bits were 0. -/
def Obligations.DecodeOfEncodeIsTheInstruction : Prop :=
  (∀ r : Record, r.wellFormed = true →
    ∃ i, decodeAt r.encode 0 = .instr i r.m.size ∧ i.record = r ∧ encode i = r.encode) ∧
  (∀ (bs : List Byte) (i : Instr), decodeAt bs 0 = .instr i bs.length →
    (encode i = bs ↔ leValue bs < 2 ^ (4 + i.mnemonic.widthB + i.mnemonic.widthC)))

/-- The bits above field C carry no meaning: at any offset of any buffer, a word decodes as the word with
those bits cleared (30_encoding.md section 5; the spec's decision D7, log 7). -/
def Obligations.UnusedBitsAreIgnored : Prop :=
  ∀ (pre post : List Byte) (m : Mnemonic) (w : Nat), w % 16 = m.opcode →
    decodeAt (pre ++ bytesLE m.size w ++ post) pre.length =
        .instr (instrOfWord m (w % 2 ^ (4 + m.widthB + m.widthC))) m.size ∧
    encodeWord (instrOfWord m w).record = w % 2 ^ (4 + m.widthB + m.widthC)

/-- `Encode` gives the bytes, `size` of them and least significant first, of the word with the opcode, B
and C above one another, each masked to its width (30_encoding.md section 7, R75). A line of assembly text
(R78) whose first token is no mnemonic of the catalog, whatever tokens follow it, fails with UnknownMnemonic
and the number of the line: that form of the failure is the model's choice, log 14. -/
def Obligations.EncodeStacksMaskedFields : Prop :=
  (∀ r : Record, r.encode.length = r.m.size ∧ ∀ i, i < r.m.size → (r.encode.getD i 0).toNat =
    (r.m.opcode + 2 ^ 4 * (r.b % 2 ^ r.m.widthB) + 2 ^ (4 + r.m.widthB) * (r.c % 2 ^ r.m.widthC))
      / 2 ^ (8 * i) % 2 ^ 8) ∧
  (∀ (line : Nat) (t : List Char) (ops : List (List Char)), mnemonicOfText t = none →
    assembleTokens line (t :: ops) = .error (.unknownMnemonic line))

/-- An operand that does not fit is cut to its field without an error (the spec's decision D13, log 13). -/
def Obligations.EncodeTruncatesSilently : Prop :=
  ∀ (m : Mnemonic) (b c : Nat),
    (Record.mk m b c).encode = (Record.mk m (b % 2 ^ m.widthB) (c % 2 ^ m.widthC)).encode

/-- In assembly text the first operand is B and the second C; a blank line gives no bytes (the operand
order is the spec's inference in 30_encoding.md section 8; decimal operands are its decision D14, log 14). -/
def Obligations.AssemblyLineIsMnemonicThenBThenC : Prop :=
  (∀ line, assembleTokens line [] = .ok []) ∧
  (∀ (line : Nat) (m : Mnemonic) (tb tc : List Char) (b c : Nat), decimal tb = some b →
    decimal tc = some c → assembleTokens line [mnemonicText m, tb, tc] = .ok (Record.mk m b c).encode)

/-! ### Data memory and the host's dump -/

/-- Program order (20_memory.md section 7). A READ_MEM gives the value of the latest WRITE_MEM to the same cell before it, whatever stands
between them, and 0 where no WRITE_MEM to the cell came before it in the run. -/
def Obligations.ReadMemSeesTheLatestWrite : Prop :=
  (∀ (s : State) (r d : RegIx) (c : BitVec 5) (b : BitVec 17) (is : List Instr),
    Memory.wf s.mem → readAddress b = writeAddress c → (∀ r', Instr.writeMem r' c ∉ is) →
    ∃ u, execList (.writeMem r c :: is ++ [.readMem b d]) s = some u ∧ u.readReg d = s.readReg r) ∧
  (∀ (code : List Byte) (d : RegIx) (b : BitVec 17) (is : List Instr), readAddress b < 1024 →
    (∀ r' c, writeAddress c = readAddress b → Instr.writeMem r' c ∉ is) →
    ∃ u, execList (is ++ [.readMem b d]) (boot code) = some u ∧ u.readReg d = 0)

/-- Two canonical memories that read alike are equal: the form of State.mem is the model's own choice
(log 5), and it makes equal memories equal data. -/
def Obligations.CanonicalMemoriesThatReadAlikeAreEqual : Prop :=
  ∀ m m' : Memory, Memory.wf m → Memory.wf m' → (∀ a, Memory.read m a = Memory.read m' a) → m = m'

/-- R176. The dump of `[lo, hi)` holds the pairs `(a, M[a])` for exactly the addresses with
`max(lo, 0) <= a < min(hi, 1024)`, each once, and it reads `M` only. -/
def Obligations.DumpHoldsTheClampedRange : Prop :=
  ∀ (s : State) (lo hi : Int),
    (∀ (a : Nat) (v : Word), (a, v) ∈ s.dump lo hi ↔
      max lo 0 ≤ (a : Int) ∧ (a : Int) < min hi 1024 ∧ v = s.cell a) ∧
    (s.dump lo hi).Pairwise (fun p q => p.1 < q.1) ∧
    ∀ s' : State, s'.mem = s.mem → s'.dump lo hi = s.dump lo hi

/-! ### Invariants every step keeps -/

/-- The invariants below hold in the state in which a run of any program starts. -/
def Obligations.InvariantsHoldAtReset : Prop :=
  State.PcInv State.reset ∧ Memory.wf State.reset.mem ∧
  ∀ code : List Byte, State.PcInv (boot code) ∧ Memory.wf (boot code).mem ∧
    State.HighCellsZero (boot code) ∧ State.ValueInv (boot code)

/-- Every step keeps `pc` inside the buffer and a recorded fault at `pc` (inferences the spec marks as its
own, 10_state.md section 3 and 60_exceptions.md section 3). -/
def Obligations.StepKeepsPcInsideTheBuffer : Prop :=
  ∀ s t : State, State.PcInv s → step s = .next t → State.PcInv t

/-- Every step keeps the canonical form of the data memory, the model's own choice (log 5). -/
def Obligations.StepKeepsMemoryCanonical : Prop :=
  ∀ s t : State, Memory.wf s.mem → step s = .next t → Memory.wf t.mem

/-- Every step keeps the cells 32 to 1023 at 0, since WRITE_MEM reaches only 0 to 31 (an inference the spec
marks as its own, 20_memory.md section 5). -/
def Obligations.StepKeepsHighCellsZero : Prop :=
  ∀ s t : State, Memory.wf s.mem → State.HighCellsZero s → step s = .next t → State.HighCellsZero t

/-- Every step keeps every register and every cell at a value a program can make: below `2^22`, or the
reversal of such a value (an inference the spec marks as its own, 41_load_const.md). -/
def Obligations.StepKeepsValuesMakeable : Prop :=
  ∀ s t : State, Memory.wf s.mem → State.ValueInv s → step s = .next t → State.ValueInv t

/-! ### Runs -/

/-- Every run ends, from every state: after at most one step for each two bytes left, plus at most one that
faults (an inference the spec marks as its own, 40_sequencer.md section 3). -/
def Obligations.EveryRunEnds : Prop :=
  ∀ s : State, ∃ k t, EndsAfter s k t ∧ k ≤ (s.code.length - s.pc) / 2 + 1 ∧
    (s.fault = none → t.fault = none → k ≤ (s.code.length - s.pc) / 2)

/-- A run ends in one of two ways. Halted: no fault, `pc = CODE_LEN`, and the instructions that stand
in the buffer from the start on, each executed once and in order, lead to the end state; their lengths sum
to the bytes passed. Faulted: the instructions below the recorded offset, each executed once and in order,
lead to the end state but for the fault record, which holds `offset = pc < CODE_LEN` (40_sequencer.md
section 3; the record and its offset are the spec's decisions D4 and D6, log 4 and log 9). -/
def Obligations.RunIsAStraightLineScan : Prop :=
  ∀ (s t : State) (k : Nat), s.fault = none → s.pc ≤ s.code.length → EndsAfter s k t →
    ∃ is u, StraightLine s is u ∧ u.pc = s.pc + (is.map Instr.size).sum ∧ u.fault = none ∧
      ((t = u ∧ t.pc = t.code.length) ∨
       (∃ r, t = { u with fault := some r } ∧ r.offset = t.pc ∧ t.pc < t.code.length))

/-- Whether a run comes to its safe end can be told from the code buffer alone: it halts, with no fault,
exactly where the bytes from `pc` on are whole instructions up to the last byte and no READ_MEM among them
has an address of 1024 or more (60_exceptions.md sections 1 and 2; 42_memory_access.md on READ_MEM; a stop
at the end of the buffer before the first step is the spec's decision D3, log 10). -/
def Obligations.RunCompletesExactlyWhenTheCodeIsSound : Prop :=
  ∀ s : State, s.fault = none → s.pc ≤ s.code.length →
    ((∃ k t, EndsAfter s k t ∧ t.Completed) ↔
      ∃ is, Parses s.code s.pc is ∧ ∀ i ∈ is, AddressExists i)

/-- What a run does with `pc` and the fault record, and when and how it stops, depends on the code buffer
alone: two runs that start with the same `code`, `pc` and fault record and any registers and memories agree
on them after every number of steps (40_sequencer.md section 2; 42_memory_access.md: the fault of READ_MEM
depends on B only). -/
def Obligations.ControlNeverDependsOnData : Prop :=
  ∀ (s s' : State), s'.code = s.code → s'.pc = s.pc → s'.fault = s.fault → ∀ k : Nat,
    (∃ t t', runSteps k s = .next t ∧ runSteps k s' = .next t' ∧
      t'.code = t.code ∧ t'.pc = t.pc ∧ t'.fault = t.fault) ∨
    (∃ f, runSteps k s = .fault f ∧ runSteps k s' = .fault f)

/-! ### The interface for opcode-table words -/

/-- A table word placed with `withFetchWord` is the instruction the very next step runs, in every state (the
interface is the model's own, log 6). -/
def Obligations.PlacedTableWordRunsNext : Prop :=
  ∀ (s : State) (nbits w : Nat) (i : Instr), decodeTableWord nbits w = some i →
    step (s.withFetchWord nbits w) = exec i (s.withFetchWord nbits w) ∧
    (s.withFetchWord nbits w).pc = s.pc ∧ (s.withFetchWord nbits w).regs = s.regs ∧
    (s.withFetchWord nbits w).mem = s.mem
end

