-- ==== Sys2Proof/Laws/Decode.lean ====
section
/-! SUPPORT. The small lemmas of the decoder and the encoder. -/

namespace Sys2Proof

@[simp] theorem instrOfWord_mnemonic (m : Mnemonic) (w : Nat) : (instrOfWord m w).mnemonic = m := by
  cases m <;> rfl

@[simp] theorem instrOfWord_size (m : Mnemonic) (w : Nat) : (instrOfWord m w).size = m.size := by
  simp [Instr.size]

@[simp] theorem bytesLE_length (n w : Nat) : (bytesLE n w).length = n := by
  induction n generalizing w with
  | zero => rfl
  | succ n ih => simp [bytesLE, ih]

/-- The little-endian value of the bytes of a word is the word, cut to their number (R44). -/
theorem leValue_bytesLE (n w : Nat) : leValue (bytesLE n w) = w % 2 ^ (8 * n) := by
  induction n generalizing w with
  | zero => simp [bytesLE, leValue, Nat.mod_one]
  | succ n ih =>
    rw [bytesLE, leValue, ih, BitVec.toNat_ofNat, show 8 * (n + 1) = 8 + 8 * n by omega, Nat.pow_add,
      Nat.mod_mul]

/-- The code read inside a buffer is the value of the bytes that stand there. -/
theorem codeRead_append (pre bs post : List Byte) :
    codeRead (pre ++ bs ++ post) pre.length bs.length = leValue bs := by
  simp [codeRead]

/-- Every opcode of the catalog is found again, and nothing else is (R70). -/
theorem mnemonicOf_eq_some {op : Nat} {m : Mnemonic} : mnemonicOf op = some m ↔ op = m.opcode := by
  constructor
  · unfold mnemonicOf; split <;> rintro ⟨⟩ <;> rfl
  · rintro rfl; cases m <;> rfl

theorem mnemonicOf_eq_none {op : Nat} :
    mnemonicOf op = none ↔ op ≠ 12 ∧ op ≠ 10 ∧ op ≠ 7 ∧ op ≠ 1 := by
  unfold mnemonicOf; split <;> simp_all

/-- Everything the decoder can answer at an offset (R73). -/
theorem decodeAt_cases (code : List Byte) (k : Nat) :
    (code.length ≤ k ∧ decodeAt code k = .endOfBuffer) ∨
    ∃ h : k < code.length,
      (mnemonicOf (lowNibble code[k]) = none ∧ decodeAt code k = .fault .unknownOpcode) ∨
      ∃ m, mnemonicOf (lowNibble code[k]) = some m ∧
        ((code.length - k < m.size ∧ decodeAt code k = .fault .truncatedInstruction) ∨
         (m.size ≤ code.length - k ∧
          decodeAt code k = .instr (instrOfWord m (codeRead code k m.size)) m.size)) := by
  rcases Nat.lt_or_ge k code.length with h | h
  · refine .inr ⟨h, ?_⟩
    have hk : code[k]? = some code[k] := List.getElem?_eq_getElem h
    cases hm : mnemonicOf (lowNibble code[k]) with
    | none => exact .inl ⟨rfl, by simp [decodeAt, hk, hm]⟩
    | some m =>
      refine .inr ⟨m, rfl, ?_⟩
      rcases Nat.lt_or_ge (code.length - k) m.size with hs | hs
      · exact .inl ⟨hs, by simp [decodeAt, hk, hm, hs]⟩
      · exact .inr ⟨hs, by simp [decodeAt, hk, hm, Nat.not_lt.mpr hs]⟩
  · exact .inl ⟨h, by simp [decodeAt, List.getElem?_eq_none h]⟩

/-- A decoded instruction comes with its own length (R74) and lies inside the buffer (R71). -/
theorem decodeAt_size {code : List Byte} {k n : Nat} {i : Instr} (h : decodeAt code k = .instr i n) :
    n = i.size ∧ k + n ≤ code.length := by
  rcases decodeAt_cases code k with ⟨_, e⟩ | ⟨hk, ⟨_, e⟩ | ⟨m, _, ⟨_, e⟩ | ⟨hs, e⟩⟩⟩
  · simp [e] at h
  · simp [e] at h
  · simp [e] at h
  · rw [e] at h
    obtain ⟨rfl, rfl⟩ := Decoded.instr.inj h
    exact ⟨by simp, by omega⟩

end Sys2Proof
end

