-- ==== Sys2Proof/Laws/Memory.lean ====
section
/-! SUPPORT. The laws of the data memory: read after write, and the canonical form kept by every write. -/

namespace Sys2Proof.Machine

/-- Every listed address lies above `k`. -/
abbrev Memory.Above (k : Nat) (m : Memory) : Prop := ∀ p ∈ m, k < p.1

theorem Memory.read_eq_reset_of_above {k a : Nat} {m : Memory} (h : Memory.Above k m) (ha : a ≤ k) :
    Memory.read m a = Config.resetCell := by
  induction m with
  | nil => rfl
  | cons p m ih =>
    have hp : k < p.1 := h p (by simp)
    have : p.1 ≠ a := by omega
    simp only [Memory.read, this, if_false]
    exact ih fun q hq => h q (by simp [hq])

/-- Reading a memory with one more listing in front. -/
theorem Memory.read_entry_append (a : Nat) (v : Word) (m : Memory) (b : Nat)
    (h : v = Config.resetCell → Memory.read m a = Config.resetCell) :
    Memory.read (Memory.entry a v ++ m) b = if b = a then v else Memory.read m b := by
  unfold Memory.entry
  split
  · next hv =>
    split
    · next hb => subst hb; simp [h hv, hv]
    · rfl
  · simp [Memory.read, eq_comm]

/-- All a write does to the memory as it is read. -/
theorem Memory.read_write {m : Memory} (h : m.Pairwise fun p q => p.1 < q.1) (a : Nat) (v : Word)
    (b : Nat) : Memory.read (Memory.write m a v) b = if b = a then v else Memory.read m b := by
  induction m with
  | nil =>
    simpa [Memory.write] using Memory.read_entry_append a v [] b fun _ => rfl
  | cons p m ih =>
    obtain ⟨k, u⟩ := p
    rw [List.pairwise_cons] at h
    have above : Memory.Above k m := h.1
    unfold Memory.write
    split
    · next hk =>
      refine Memory.read_entry_append a v _ b fun _ => ?_
      have : k ≠ a := by omega
      simp only [Memory.read, this, if_false]
      exact Memory.read_eq_reset_of_above above (by omega)
    · split
      · next hk =>
        subst hk
        rw [Memory.read_entry_append a v m b fun _ => Memory.read_eq_reset_of_above above (le_refl _)]
        by_cases hb : b = a
        · simp [hb]
        · simp [hb, Memory.read, Ne.symm hb]
      · next hk =>
        simp only [Memory.read, ih h.2]
        by_cases hb : k = b
        · subst hb; simp [Ne.symm hk]
        · simp [hb]

theorem Memory.entry_mem {a : Nat} {v : Word} {p : Nat × Word} (h : p ∈ Memory.entry a v) :
    p = (a, v) ∧ v ≠ Config.resetCell := by
  unfold Memory.entry at h
  split at h
  · simp at h
  · next hv => exact ⟨by simpa using h, hv⟩

/-- A write lists nothing but what was listed and the cell written. -/
theorem Memory.mem_write {m : Memory} {a : Nat} {v : Word} {p : Nat × Word}
    (h : p ∈ Memory.write m a v) : p ∈ m ∨ (p = (a, v) ∧ v ≠ Config.resetCell) := by
  induction m with
  | nil => exact .inr (Memory.entry_mem h)
  | cons q m ih =>
    obtain ⟨k, u⟩ := q
    unfold Memory.write at h
    split at h
    · rcases List.mem_append.mp h with h | h
      · exact .inr (Memory.entry_mem h)
      · exact .inl h
    · split at h
      · rcases List.mem_append.mp h with h | h
        · exact .inr (Memory.entry_mem h)
        · exact .inl (List.mem_cons_of_mem _ h)
      · rcases List.mem_cons.mp h with h | h
        · exact .inl (by simp [h])
        · rcases ih h with h | h
          · exact .inl (List.mem_cons_of_mem _ h)
          · exact .inr h

theorem Memory.pairwise_entry_append {a : Nat} {v : Word} {m : Memory}
    (h : m.Pairwise fun p q => p.1 < q.1) (ha : Memory.Above a m) :
    (Memory.entry a v ++ m).Pairwise fun p q => p.1 < q.1 := by
  unfold Memory.entry
  split
  · simpa using h
  · simpa using ⟨fun x y hxy => ha (x, y) hxy, h⟩

theorem Memory.pairwise_write {m : Memory} (h : m.Pairwise fun p q => p.1 < q.1) (a : Nat) (v : Word) :
    (Memory.write m a v).Pairwise fun p q => p.1 < q.1 := by
  induction m with
  | nil =>
    simpa [Memory.write] using Memory.pairwise_entry_append (a := a) (v := v) (m := []) .nil (by simp)
  | cons q m ih =>
    obtain ⟨k, u⟩ := q
    have h' := List.pairwise_cons.mp h
    unfold Memory.write
    split
    · next hk =>
      refine Memory.pairwise_entry_append h fun p hp => ?_
      rcases List.mem_cons.mp hp with rfl | hp
      · exact hk
      · exact lt_trans hk (h'.1 p hp)
    · split
      · next hk => exact Memory.pairwise_entry_append h'.2 (hk ▸ h'.1)
      · next hk hne =>
        refine List.pairwise_cons.mpr ⟨fun p hp => ?_, ih h'.2⟩
        rcases Memory.mem_write hp with hp | ⟨rfl, _⟩
        · exact h'.1 p hp
        · simp only; omega

/-- A write to a cell that exists keeps the canonical form. -/
theorem Memory.write_wf {m : Memory} (h : Memory.wf m) {a : Nat} (ha : a < Config.memCells) (v : Word) :
    Memory.wf (Memory.write m a v) := by
  refine ⟨Memory.pairwise_write h.1 a v, fun p hp => ?_⟩
  rcases Memory.mem_write hp with hp | ⟨rfl, hv⟩
  · exact h.2 p hp
  · exact ⟨ha, hv⟩

/-- The memory after reset is canonical. -/
theorem State.reset_mem_wf : Memory.wf State.reset.mem := by decide

end Sys2Proof.Machine
end

