-- ==== Sys2Proof/Laws/State.lean ====
section
/-! SUPPORT. The fields of every state update, one lemma per field, and the register read after a write. -/

namespace Sys2Proof.Machine

section WriteReg
variable (s : State) (i : RegIx) (v : Word)

@[simp] theorem State.writeReg_regs : (s.writeReg i v).regs = s.regs.set i v := rfl
@[simp] theorem State.writeReg_mem : (s.writeReg i v).mem = s.mem := rfl
@[simp] theorem State.writeReg_pc : (s.writeReg i v).pc = s.pc := rfl
@[simp] theorem State.writeReg_fault : (s.writeReg i v).fault = s.fault := rfl
@[simp] theorem State.writeReg_code : (s.writeReg i v).code = s.code := rfl
@[simp] theorem State.writeReg_cell (a : Nat) : (s.writeReg i v).cell a = s.cell a := rfl

@[simp] theorem State.readReg_writeReg_same : (s.writeReg i v).readReg i = v := by
  simp [State.readReg, State.writeReg]

theorem State.readReg_writeReg_ne {j : RegIx} (h : j ≠ i) :
    (s.writeReg i v).readReg j = s.readReg j := by
  have : i.val ≠ j.val := fun e => h (Fin.ext e.symm)
  simp [State.readReg, State.writeReg, Vector.getElem_set_ne, this]

/-- All a register write does to the registers. -/
theorem State.readReg_writeReg (j : RegIx) :
    (s.writeReg i v).readReg j = if j = i then v else s.readReg j := by
  split
  · next h => subst h; exact s.readReg_writeReg_same _ v
  · next h => exact s.readReg_writeReg_ne i v h

end WriteReg

section WriteCell
variable (s : State) (a : Nat) (v : Word)

@[simp] theorem State.writeCell_regs : (s.writeCell a v).regs = s.regs := rfl
@[simp] theorem State.writeCell_mem : (s.writeCell a v).mem = Memory.write s.mem a v := rfl
@[simp] theorem State.writeCell_pc : (s.writeCell a v).pc = s.pc := rfl
@[simp] theorem State.writeCell_fault : (s.writeCell a v).fault = s.fault := rfl
@[simp] theorem State.writeCell_code : (s.writeCell a v).code = s.code := rfl
@[simp] theorem State.writeCell_readReg (i : RegIx) : (s.writeCell a v).readReg i = s.readReg i := rfl

end WriteCell

section Advance
variable (s : State) (n : Nat)

@[simp] theorem State.advance_regs : (s.advance n).regs = s.regs := rfl
@[simp] theorem State.advance_mem : (s.advance n).mem = s.mem := rfl
@[simp] theorem State.advance_pc : (s.advance n).pc = s.pc + n := rfl
@[simp] theorem State.advance_fault : (s.advance n).fault = s.fault := rfl
@[simp] theorem State.advance_code : (s.advance n).code = s.code := rfl
@[simp] theorem State.advance_cell (a : Nat) : (s.advance n).cell a = s.cell a := rfl
@[simp] theorem State.advance_readReg (i : RegIx) : (s.advance n).readReg i = s.readReg i := rfl

end Advance

section Raise
variable (s : State) (k : FaultKind)

@[simp] theorem State.raise_regs : (s.raise k).regs = s.regs := rfl
@[simp] theorem State.raise_mem : (s.raise k).mem = s.mem := rfl
@[simp] theorem State.raise_pc : (s.raise k).pc = s.pc := rfl
@[simp] theorem State.raise_fault : (s.raise k).fault = some ⟨k, s.pc⟩ := rfl
@[simp] theorem State.raise_code : (s.raise k).code = s.code := rfl
@[simp] theorem State.raise_cell (a : Nat) : (s.raise k).cell a = s.cell a := rfl
@[simp] theorem State.raise_readReg (i : RegIx) : (s.raise k).readReg i = s.readReg i := rfl

end Raise

section Host
variable (s : State) (bs : List Byte)

@[simp] theorem State.load_regs : (s.load bs).regs = s.regs := rfl
@[simp] theorem State.load_mem : (s.load bs).mem = s.mem := rfl
@[simp] theorem State.load_pc : (s.load bs).pc = s.pc := rfl
@[simp] theorem State.load_fault : (s.load bs).fault = s.fault := rfl
@[simp] theorem State.load_code : (s.load bs).code = bs := rfl

@[simp] theorem State.reset_mem : State.reset.mem = [] := rfl
@[simp] theorem State.reset_pc : State.reset.pc = 0 := rfl
@[simp] theorem State.reset_fault : State.reset.fault = none := rfl
@[simp] theorem State.reset_code : State.reset.code = [] := rfl
@[simp] theorem State.reset_cell (a : Nat) : State.reset.cell a = 0 := rfl
@[simp] theorem State.reset_readReg (i : RegIx) : State.reset.readReg i = 0 := by
  simp [State.readReg, State.reset]

@[simp] theorem State.withFetchWord_regs (n w : Nat) : (s.withFetchWord n w).regs = s.regs := rfl
@[simp] theorem State.withFetchWord_mem (n w : Nat) : (s.withFetchWord n w).mem = s.mem := rfl
@[simp] theorem State.withFetchWord_pc (n w : Nat) : (s.withFetchWord n w).pc = s.pc := rfl
@[simp] theorem State.withFetchWord_fault (n w : Nat) : (s.withFetchWord n w).fault = none := rfl
@[simp] theorem State.withFetchWord_code (n w : Nat) :
    (s.withFetchWord n w).code = overlay s.code s.pc (tableBytes n w) := rfl

end Host

/-- The status faulted is the presence of a fault record (R31). -/
theorem State.status_faulted_iff (s : State) : s.status = .faulted ↔ ∃ r, s.fault = some r := by
  unfold State.status; cases s.fault <;> simp; split <;> simp

/-- The status running (R31). -/
theorem State.status_running_iff (s : State) :
    s.status = .running ↔ s.fault = none ∧ s.pc < s.codeLen := by
  unfold State.status; cases s.fault <;> simp

/-- The status halted (R31). -/
theorem State.status_halted_iff (s : State) :
    s.status = .halted ↔ s.fault = none ∧ s.codeLen ≤ s.pc := by
  unfold State.status; cases s.fault <;> simp

end Sys2Proof.Machine
end

