-- ==== Sys2Proof/Laws/Ops.lean ====
section
/-! SUPPORT. For each shared operation and each meaning, one lemma that says everything it can do, and the
case split of a step. -/

namespace Sys2Proof.Machine

/-- Everything `memRead` can answer (R10). -/
theorem State.memRead_cases (s : State) (a : Nat) :
    (a < Config.memCells ∧ s.memRead a = .ok (s.cell a)) ∨
      (Config.memCells ≤ a ∧ s.memRead a = .error .addressOutOfRange) := by
  unfold State.memRead
  split
  · next h => exact .inl ⟨h, rfl⟩
  · next h => exact .inr ⟨by omega, rfl⟩

/-- Everything `memWrite` can answer (R10). -/
theorem State.memWrite_cases (s : State) (a : Nat) (v : Word) :
    (a < Config.memCells ∧ s.memWrite a v = .ok (s.writeCell a v)) ∨
      (Config.memCells ≤ a ∧ s.memWrite a v = .error .addressOutOfRange) := by
  unfold State.memWrite
  split
  · next h => exact .inl ⟨h, rfl⟩
  · next h => exact .inr ⟨by omega, rfl⟩

/-- All a write of a cell does to the memory as it is read. -/
theorem State.cell_writeCell {s : State} (hs : Memory.wf s.mem) (a : Nat) (v : Word) (b : Nat) :
    (s.writeCell a v).cell b = if b = a then v else s.cell b :=
  Memory.read_write hs.1 a v b

/-- Where `memWrite` answers a state, the canonical form is kept. -/
theorem State.memWrite_wf {s t : State} {a : Nat} {v : Word} (hs : Memory.wf s.mem)
    (h : s.memWrite a v = .ok t) : Memory.wf t.mem := by
  rcases s.memWrite_cases a v with ⟨ha, e⟩ | ⟨_, e⟩
  · rw [e] at h; cases h; exact Memory.write_wf hs ha v
  · rw [e] at h; cases h

/-- WRITE_MEM's address always exists (R121). -/
theorem writeAddress_lt (c : BitVec 5) : writeAddress c < Config.memCells :=
  lt_trans c.isLt (by decide)

/-- The constant of LOAD_CONST is the number B (R111). -/
theorem constantValue_toNat (b : BitVec 22) : (constantValue b).toNat = b.toNat := by
  rw [constantValue, BitVec.toNat_setWidth, Nat.mod_eq_of_lt (lt_trans b.isLt (by decide))]

theorem reverseBits_lt (n v : Nat) : reverseBits n v < 2 ^ n := by
  induction n generalizing v with
  | zero => simp [reverseBits]
  | succ n ih =>
    have h := ih (v / 2)
    have : 2 ^ n * (v % 2) ≤ 2 ^ n * 1 := Nat.mul_le_mul_left _ (by omega)
    rw [reverseBits, Nat.pow_succ]
    omega

/-- Bit `i` of the reversal of `n` bits is bit `n - 1 - i`. -/
theorem reverseBits_testBit {n i : Nat} (h : i < n) (v : Nat) :
    (reverseBits n v).testBit i = v.testBit (n - 1 - i) := by
  induction n generalizing v with
  | zero => omega
  | succ n ih =>
    rw [reverseBits, Nat.testBit_two_pow_mul_add _ (reverseBits_lt n (v / 2))]
    split
    · next hi =>
      rw [ih hi, ← Nat.testBit_add_one]
      congr 1
      omega
    · next hi =>
      have : i = n := by omega
      subst this
      simp [Nat.testBit_zero]

/-- Bit `i` of the reversal is bit `31 - i` (R10, R131 law 1). -/
theorem bitreverse32_getLsbD (v : Word) {i : Nat} (h : i < 32) :
    (bitreverse32 v).getLsbD i = v.getLsbD (31 - i) := by
  rw [bitreverse32, BitVec.getLsbD_ofNat, reverseBits_testBit h]
  simp [h, BitVec.getLsbD]

theorem exec_loadConst (b : BitVec 22) (c : RegIx) (s : State) :
    exec (.loadConst b c) s = .next ((s.writeReg c (constantValue b)).advance 4) := rfl

theorem exec_bitReverse (b c : RegIx) (s : State) :
    exec (.bitReverse b c) s = .next ((s.writeReg c (bitreverse32 (s.readReg b))).advance 2) := rfl

theorem exec_readMem_of_lt {b : BitVec 17} (h : readAddress b < Config.memCells) (c : RegIx) (s : State) :
    exec (.readMem b c) s = .next ((s.writeReg c (s.cell (readAddress b))).advance 4) := by
  simp [exec, execReadMem, State.memRead, h, Mnemonic.size]

theorem exec_readMem_of_ge {b : BitVec 17} (h : Config.memCells ≤ readAddress b) (c : RegIx) (s : State) :
    exec (.readMem b c) s = .next (s.raise .addressOutOfRange) := by
  simp [exec, execReadMem, State.memRead, Nat.not_lt.mpr h]

theorem exec_writeMem (b : RegIx) (c : BitVec 5) (s : State) :
    exec (.writeMem b c) s =
      .next ((s.writeCell (writeAddress c) (s.readReg b)).advance 2) := by
  simp [exec, execWriteMem, State.memWrite, writeAddress_lt, Mnemonic.size]

/-- What each instruction does: one register or one cell written and `pc` advanced, or, for READ_MEM of an
address that does not exist, the fault (R110, R120, R121, R130). -/
inductive Effect (s : State) : Instr → State → Prop where
  | loadConst (b : BitVec 22) (c : RegIx) :
      Effect s (.loadConst b c) ((s.writeReg c (constantValue b)).advance 4)
  | readMem (b : BitVec 17) (c : RegIx) (h : readAddress b < Config.memCells) :
      Effect s (.readMem b c) ((s.writeReg c (s.cell (readAddress b))).advance 4)
  | outOfRange (b : BitVec 17) (c : RegIx) (h : Config.memCells ≤ readAddress b) :
      Effect s (.readMem b c) (s.raise .addressOutOfRange)
  | writeMem (b : RegIx) (c : BitVec 5) :
      Effect s (.writeMem b c)
        ((s.writeCell (writeAddress c) (s.readReg b)).advance 2)
  | bitReverse (b c : RegIx) :
      Effect s (.bitReverse b c) ((s.writeReg c (bitreverse32 (s.readReg b))).advance 2)

/-- Every instruction answers a next state, with its effect. -/
theorem exec_next (i : Instr) (s : State) : ∃ t, exec i s = .next t ∧ Effect s i t := by
  cases i with
  | loadConst b c => exact ⟨_, exec_loadConst b c s, .loadConst b c⟩
  | bitReverse b c => exact ⟨_, exec_bitReverse b c s, .bitReverse b c⟩
  | writeMem b c => exact ⟨_, exec_writeMem b c s, .writeMem b c⟩
  | readMem b c =>
    rcases Nat.lt_or_ge (readAddress b) Config.memCells with h | h
    · exact ⟨_, exec_readMem_of_lt h c s, .readMem b c h⟩
    · exact ⟨_, exec_readMem_of_ge h c s, .outOfRange b c h⟩

/-- What an instruction did, read off its next state. -/
theorem exec_effect {i : Instr} {s t : State} (h : exec i s = .next t) : Effect s i t := by
  obtain ⟨u, hu, he⟩ := exec_next i s
  rw [hu] at h
  cases h
  exact he

/-- Everything a step can do where it answers a next state (R91). -/
theorem step_cases {s t : State} (h : step s = .next t) :
    s.fault = none ∧
      ((∃ k, s.fetch = .fault k ∧ t = s.raise k) ∨ (∃ i n, s.fetch = .instr i n ∧ exec i s = .next t)) := by
  unfold step at h
  split at h
  · cases h
  · next hf =>
    refine ⟨hf, ?_⟩
    split at h
    · next i n hd => exact .inr ⟨i, n, hd, h⟩
    · next k hd => exact .inl ⟨k, hd, by cases h; rfl⟩
    · cases h

end Sys2Proof.Machine
end

