-- ==== Sys2Proof/Laws/PerInstr.lean ====
section
/-! SUPPORT. A statement about every instruction as syntax, proved one constructor at a time: its encoding
has the instruction's length, and the decoder finds the mnemonic in the low nibble of its first byte
(spec/30_encoding.md R62). -/

namespace Sys2Proof.Laws

/-- The encoding of `i` has the length of `i`, 2 or 4 bytes, and begins with its opcode. -/
def EncodingHead.Statement (i : Instr) : Prop :=
  (encode i).length = i.size ∧ ((encode i).head?.map fun b => mnemonicOf (lowNibble b)) =
    some (some i.mnemonic)

/-- The low nibble of an encoded word is its opcode: B and C stand above it (R60). -/
theorem encodeWord_mod_opcode (r : Record) : encodeWord r % 16 = r.m.opcode := by
  have hop : r.m.opcode < 2 ^ 4 := by cases r.m <;> decide
  have h : encodeWord r = r.m.opcode ||| (((r.b &&& (2 ^ r.m.widthB - 1)) |||
      ((r.c &&& (2 ^ r.m.widthC - 1)) <<< r.m.widthB)) <<< 4) := by
    rw [encodeWord, Nat.or_assoc, Nat.shiftLeft_or_distrib, ← Nat.shiftLeft_add, Nat.add_comm]
  rw [h, Nat.or_comm, ← Nat.shiftLeft_add_eq_or_of_lt hop, Nat.shiftLeft_eq]
  omega

theorem encodingHead (r : Record) :
    r.encode.length = r.m.size ∧ (r.encode.head?.map fun b => mnemonicOf (lowNibble b)) = some (some r.m) := by
  refine ⟨bytesLE_length _ _, ?_⟩
  have hs : ∃ n, r.m.size = n + 1 := by cases r.m <;> exact ⟨_, rfl⟩
  obtain ⟨n, hn⟩ := hs
  have hb : lowNibble (BitVec.ofNat 8 (encodeWord r)) = r.m.opcode := by
    rw [lowNibble, BitVec.toNat_ofNat, Nat.mod_mod_of_dvd _ (by decide), encodeWord_mod_opcode]
  simp [Record.encode, hn, bytesLE, hb, mnemonicOf_eq_some]

theorem EncodingHead.loadConst (b : BitVec 22) (c : RegIx) : EncodingHead.Statement (.loadConst b c) :=
  encodingHead _

theorem EncodingHead.readMem (b : BitVec 17) (c : RegIx) : EncodingHead.Statement (.readMem b c) :=
  encodingHead _

theorem EncodingHead.writeMem (b : RegIx) (c : BitVec 5) : EncodingHead.Statement (.writeMem b c) :=
  encodingHead _

theorem EncodingHead.bitReverse (b c : RegIx) : EncodingHead.Statement (.bitReverse b c) :=
  encodingHead _

end Sys2Proof.Laws
end

