-- ==== Sys2Proof/Laws/Run.lean ====
section
/-! SUPPORT. The lemmas of a run of several steps. -/

namespace Sys2Proof.Machine

@[simp] theorem runSteps_zero (s : State) : runSteps 0 s = .next s := rfl

/-- One step more in front of a run. -/
theorem runSteps_succ_next {s t : State} (h : step s = .next t) (k : Nat) :
    runSteps (k + 1) s = runSteps k t := by
  simp [runSteps, h]

/-- A run stops where its first step stops. -/
theorem runSteps_succ_fault {s : State} {r : Fault} (h : step s = .fault r) (k : Nat) :
    runSteps (k + 1) s = .fault r := by
  simp [runSteps, h]

/-- The run of this model is the host's run of `Sys2Proof.core`. -/
theorem runSteps_eq_core_run (k : Nat) (s : State) : runSteps k s = Host.Core.run Sys2Proof.core k s := by
  induction k generalizing s with
  | zero => rfl
  | succ k ih =>
    have e := Host.Core.run.eq_2 Sys2Proof.core s k
    cases h : step s with
    | next t =>
      have h' : Sys2Proof.core.step s = .next t := h
      rw [h'] at e
      exact (runSteps_succ_next h k).trans ((ih t).trans e.symm)
    | fault r =>
      have h' : Sys2Proof.core.step s = .fault r := h
      rw [h'] at e
      exact (runSteps_succ_fault h k).trans e.symm
    | refused r =>
      have h' : Sys2Proof.core.step s = .refused r := h
      rw [h'] at e
      exact (show runSteps (k + 1) s = .refused r by simp [runSteps, h]).trans e.symm

end Sys2Proof.Machine
end

