-- ==== Sys2Proof/Tests/Slice0.lean ====
section
/-! SUPPORT. Small tests of the model. Expected values are the spec's worked examples and test vectors
(spec/95_test_vectors.md; the section is named at each group), and, at the end, one witness for the
hypotheses of each obligation that has some. -/

namespace Sys2Proof.Tests

open Sys2Proof.Machine

/-- The state with `code` loaded, about to execute at offset `pc`. -/
def stateAt (code : List Byte) (pc : Nat) : State := { boot code with pc := pc }

/-- Whether a step answers a next state with property `p`. -/
def nextIs (o : Host.Outcome State Fault Refusal) (p : State → Bool) : Bool :=
  match o with
  | .next t => p t
  | .fault _ => false
  | .refused _ => false

/-- Whether a step stops with the fault `f`. -/
def stopIs (o : Host.Outcome State Fault Refusal) (f : Fault) : Bool :=
  match o with
  | .next _ => false
  | .fault g => f = g
  | .refused _ => false

/-! ### Well-formedness: an ill-formed record for each check -/

theorem test_illformed_b_constant : (Record.mk .loadConst 4194304 0).fitsB = false := by decide
theorem test_illformed_b_address : (Record.mk .readMem 131072 0).wellFormed = false := by decide
theorem test_illformed_b_register : (Record.mk .bitReverse 32 0).wellFormed = false := by decide
theorem test_illformed_c_register : (Record.mk .loadConst 5 32).fitsC = false := by decide
theorem test_illformed_c_address : (Record.mk .writeMem 1 37).wellFormed = false := by decide
theorem test_wellformed_largest : (Record.mk .readMem 131071 31).wellFormed = true := by decide

/-! ### Decoding, words written out from R63 to R66 (95_test_vectors.md 2.1, 2.2) -/

theorem test_decode_loadConst : decodeAt [0x4C, 0x06, 0x00, 0x04] 0 = .instr (.loadConst 100 1) 4 := by decide
theorem test_decode_loadConst_largest_unused_set :
    decodeAt [0xFC, 0xFF, 0xFF, 0xFF] 0 = .instr (.loadConst 4194303 31) 4 := by decide
theorem test_decode_readMem : decodeAt [0x5A, 0x00, 0x40, 0xFC] 0 = .instr (.readMem 5 2) 4 := by decide
theorem test_decode_readMem_last_cell : decodeAt [0xFA, 0x3F, 0xE0, 0x03] 0 = .instr (.readMem 1023 31) 4 := by
  decide
theorem test_decode_writeMem : decodeAt [0x17, 0x0A] 0 = .instr (.writeMem 1 5) 2 := by decide
theorem test_decode_writeMem_unused_set : decodeAt [0xF7, 0xFF] 0 = .instr (.writeMem 31 31) 2 := by decide
theorem test_decode_bitReverse : decodeAt [0x21, 0x06] 0 = .instr (.bitReverse 2 3) 2 := by decide
theorem test_decode_bitReverse_unaligned :
    decodeAt [0xFF, 0xF1, 0x3F, 0x00] 1 = .instr (.bitReverse 31 31) 2 := by decide
theorem test_decode_unknown : decodeAt [0xF3] 0 = .fault .unknownOpcode := by decide
theorem test_decode_truncated : decodeAt [0x0A, 0x40, 0x40] 0 = .fault .truncatedInstruction := by decide
theorem test_decode_end : decodeAt [0x07, 0x00] 2 = .endOfBuffer := by decide
theorem test_table_word : decodeTableWord 16 0xCA17 = some (.writeMem 1 5) := by decide
theorem test_table_word_illegal : decodeTableWord 32 0x0000000D = none := by decide

/-! ### Encoding (95_test_vectors.md 2.3) -/

theorem test_encode_loadConst : encode (.loadConst 100 1) = [0x4C, 0x06, 0x00, 0x04] := by decide
theorem test_encode_readMem : encode (.readMem 131071 31) = [0xFA, 0xFF, 0xFF, 0x03] := by decide
theorem test_encode_writeMem : encode (.writeMem 31 31) = [0xF7, 0x3F] := by decide
theorem test_encode_bitReverse : encode (.bitReverse 2 3) = [0x21, 0x06] := by decide
theorem test_encode_truncates : (Record.mk .writeMem 33 37).encode = [0x17, 0x0A] := by decide

/-! ### One step (95_test_vectors.md 2.4 to 2.7) -/

theorem test_step_loadConst_zero_extends :
    nextIs (step (State.reset.withFetchWord 32 0x7FFFFFFC)) (fun t => t.readReg 31 = 0x003FFFFF ∧ t.pc = 4) = true := by
  decide
theorem test_step_readMem_reads_the_cell :
    nextIs (step ((stateAt [0x5A, 0x00, 0x40, 0x00] 0).writeCell 5 100)) (fun t => t.readReg 2 = 100 ∧ t.pc = 4) = true := by
  decide
theorem test_step_readMem_first_illegal_address :
    nextIs (step (stateAt [0x7C, 0x00, 0x00, 0x08, 0x0A, 0x40, 0x40, 0x00] 4))
      (fun t => t.fault = some ⟨.addressOutOfRange, 4⟩ ∧ t.pc = 4 ∧ t.readReg 2 = 0) = true := by
  decide
theorem test_step_writeMem_register_is_b :
    nextIs (step ((stateAt [0x17, 0x0A] 0).writeReg 1 100)) (fun t => t.cell 5 = 100 ∧ t.cell 1 = 0 ∧ t.pc = 2) = true := by
  decide
theorem test_step_writeMem_of_zero_unlists :
    nextIs (step ((stateAt [0x17, 0x0A] 0).writeCell 5 7)) (fun t => t.mem = []) = true := by
  decide
theorem test_step_bitReverse :
    nextIs (step ((stateAt [0x21, 0x06] 0).writeReg 2 100))
      (fun t => t.readReg 3 = 637534208 ∧ t.readReg 2 = 100 ∧ t.pc = 2) = true := by
  decide
theorem test_step_bitReverse_in_place :
    nextIs (step ((stateAt [0x01, 0x00] 0).writeReg 0 1)) (fun t => t.readReg 0 = 0x80000000) = true := by
  decide
theorem test_bitreverse_value : bitreverse32 0x12345678 = 0x1E6A2C48 := by decide
theorem test_step_truncated :
    nextIs (step (stateAt [0x07, 0x00, 0x4C, 0x06] 2))
      (fun t => t.fault = some ⟨.truncatedInstruction, 2⟩ ∧ t.pc = 2) = true := by
  decide
theorem test_step_unknown :
    nextIs (step (stateAt [0xF3, 0xFF] 0)) (fun t => t.fault = some ⟨.unknownOpcode, 0⟩ ∧ t.pc = 0) = true := by
  decide
theorem test_step_empty_buffer_halts : stopIs (step State.reset) .halted = true := by decide
theorem test_step_faulted_stops :
    stopIs (step ((stateAt [0x03] 0).raise .unknownOpcode)) (.faulted ⟨.unknownOpcode, 0⟩) = true := by decide

/-! ### Host port and assembler (R155, R176, R78, R79) -/

theorem test_dump_clamps : ((State.reset.writeCell 1023 9).dump 1022 5000) = [(1022, 0), (1023, 9)] := by
  decide +kernel
theorem test_fault_code : ((stateAt [0x0A] 0).raise .truncatedInstruction).faultCode = 2 := by decide
theorem test_assemble :
    (match assemble "WRITE_MEM  1, 5 ; M[5]\n\n; nothing\nBITREVERSE 2,3".toList with
      | .ok bs => bs
      | .error _ => []) = [0x17, 0x0A, 0x21, 0x06] := by decide +kernel
theorem test_assemble_unknown_mnemonic :
    (match assemble "\nMOV 1, 2".toList with
      | .ok _ => none
      | .error e => some e) = some (.unknownMnemonic 2) := by decide +kernel

/-! ### Witnesses: the hypotheses of each obligation are met together -/

/-- LoadConstWritesTheConstant, the encoding clause: the largest fields, between other bytes. -/
theorem witness_loadConst_word : ∃ (w : BitVec 32) (pre post : List Byte) (s : State),
    w.extractLsb' 0 4 = 12#4 ∧ w.extractLsb' 31 1 = 0#1 ∧ s.fault = none ∧
    s.code = pre ++ bytesLE 4 w.toNat ++ post ∧ s.pc = pre.length :=
  ⟨0x7FFFFFFC, [1, 0], [3], stateAt ([1, 0] ++ bytesLE 4 0x7FFFFFFC ++ [3]) 2, by decide, by decide, rfl, rfl, rfl⟩

/-- ReadMemLoadsTheCellOrFaults, the two effect clauses at their boundary, and the encoding clause. -/
theorem witness_readMem_addresses :
    readAddress 0 < 1024 ∧ readAddress 1023 < 1024 ∧ 1024 ≤ readAddress 1024 ∧ 1024 ≤ readAddress 131071 := by decide
theorem witness_readMem_word : ∃ (w : BitVec 32) (pre post : List Byte) (s : State),
    w.extractLsb' 0 4 = 10#4 ∧ w.extractLsb' 26 6 = 0#6 ∧ s.fault = none ∧
    s.code = pre ++ bytesLE 4 w.toNat ++ post ∧ s.pc = pre.length :=
  ⟨0x03FFFFFA, [1, 0], [3], stateAt ([1, 0] ++ bytesLE 4 0x03FFFFFA ++ [3]) 2, by decide, by decide, rfl, rfl, rfl⟩

/-- A state with a register and a cell that are not 0, and a canonical memory. -/
def busy (code : List Byte) : State := ((boot code).writeReg 1 100).writeCell 31 7

/-- WriteMemStoresTheRegister (and every obligation with this premise): a canonical memory that lists a cell. -/
theorem witness_canonical : Memory.wf (busy [0x17, 0x0A]).mem ∧ (busy [0x17, 0x0A]).mem ≠ [] := by decide
theorem witness_writeMem_word : ∃ (w : BitVec 16) (pre post : List Byte) (s : State),
    w.extractLsb' 0 4 = 7#4 ∧ w.extractLsb' 14 2 = 0#2 ∧ s.fault = none ∧
    s.code = pre ++ bytesLE 2 w.toNat ++ post ∧ s.pc = pre.length :=
  ⟨0x3FF7, [1, 0], [3], stateAt ([1, 0] ++ bytesLE 2 0x3FF7 ++ [3]) 2, by decide, by decide, rfl, rfl, rfl⟩

/-- BitReverseReversesAllBits, the encoding clause. -/
theorem witness_bitReverse_word : ∃ (w : BitVec 16) (pre post : List Byte) (s : State),
    w.extractLsb' 0 4 = 1#4 ∧ w.extractLsb' 14 2 = 0#2 ∧ s.fault = none ∧
    s.code = pre ++ bytesLE 2 w.toNat ++ post ∧ s.pc = pre.length :=
  ⟨0x3FF1, [1, 0], [3], stateAt ([1, 0] ++ bytesLE 2 0x3FF1 ++ [3]) 2, by decide, by decide, rfl, rfl, rfl⟩

/-- BitReversalIsAnInvolution, the clause about disjoint bits. -/
theorem witness_disjoint_bits : (0x0000FFFF#32) &&& 0xFFFF0000#32 = 0 := by decide

/-- StepRunsTheDecodedInstruction and EveryRunEnds: a running state. -/
theorem witness_running : (busy [0x17, 0x0A]).fault = none ∧ (busy [0x17, 0x0A]).pc < (busy [0x17, 0x0A]).code.length := by
  decide

/-- RestartDiscardsTheWholeState: two different states with one program. -/
theorem witness_restart : (busy [3]).code = (boot [3]).code ∧ busy [3] ≠ boot [3] := by decide

/-- The step of WRITE_MEM 1, 5 from the busy state. -/
theorem step_busy : step (busy [0x17, 0x0A]) = .next (((busy [0x17, 0x0A]).writeCell 5 100).advance 2) := by
  have hf : (busy [0x17, 0x0A]).fault = none := rfl
  have hd : (busy [0x17, 0x0A]).fetch = .instr (.writeMem 1 5) 2 := test_decode_writeMem
  rw [step, hf]
  simp only [hd]
  exact exec_writeMem 1 5 _

/-- PcAdvancesByTheInstructionsLength, StepWritesOneRegisterOrOneCell, StepKeepsMemoryCanonical: a step that
changes a cell from a canonical memory and records no fault. -/
theorem witness_step_changes_cell :
    ∃ t, step (busy [0x17, 0x0A]) = .next t ∧ Memory.wf (busy [0x17, 0x0A]).mem ∧ t.fault = none ∧
      t.cell 5 ≠ (busy [0x17, 0x0A]).cell 5 :=
  ⟨_, step_busy, by decide⟩

/-- The step of LOAD_CONST 100, 1 from a canonical memory changes a register (StepWritesOneRegisterOrOneCell). -/
theorem witness_step_changes_register :
    ∃ t, step (boot [0x4C, 0x06, 0x00, 0x04]) = .next t ∧ Memory.wf (boot [0x4C, 0x06, 0x00, 0x04]).mem ∧
      t.readReg 1 ≠ (boot [0x4C, 0x06, 0x00, 0x04]).readReg 1 := by
  refine ⟨((boot [0x4C, 0x06, 0x00, 0x04]).writeReg 1 100).advance 4, ?_, by decide⟩
  have hd : (boot [0x4C, 0x06, 0x00, 0x04]).fetch = .instr (.loadConst 100 1) 4 := test_decode_loadConst
  have hf : (boot [0x4C, 0x06, 0x00, 0x04]).fault = none := rfl
  rw [step, hf]
  simp only [hd]
  exact exec_loadConst 100 1 _

/-- PcAdvancesByTheInstructionsLength, FaultingStepChangesOnlyTheFaultRecord: a step that faults. -/
theorem witness_step_faults :
    ∃ t r, step (boot [0xF3]) = .next t ∧ t.fault = some r := by
  have hd : (boot [0xF3]).fetch = .fault .unknownOpcode := test_decode_unknown
  have hf : (boot [0xF3]).fault = none := rfl
  refine ⟨(boot [0xF3]).raise .unknownOpcode, _, ?_, rfl⟩
  rw [step, hf]
  simp only [hd]

/-- IllegalNibbleIsUnknownOpcode, at both ends of the list of nibbles. -/
theorem witness_illegal_nibble :
    (boot [0xF0]).fault = none ∧ (boot [0xF0]).code[(boot [0xF0]).pc]? = some 0xF0 ∧
    (0xF0 : Byte).toNat % 16 ∈ [0, 2, 3, 4, 5, 6, 8, 9, 11, 13, 14, 15] ∧
    (boot [0xFF, 1]).code[(boot [0xFF, 1]).pc]? = some 0xFF ∧
    (0xFF : Byte).toNat % 16 ∈ [0, 2, 3, 4, 5, 6, 8, 9, 11, 13, 14, 15] := by decide

/-- CutShortInstructionIsTruncated: 3 bytes left of 4, and 1 byte left of 2. -/
theorem witness_cut_short :
    ((boot [0x0A, 0x40, 0x40]).fault = none ∧ (boot [0x0A, 0x40, 0x40]).code[0]? = some 0x0A ∧ (0x0A : Byte).toNat % 16 ∈ [12, 10] ∧
      (boot [0x0A, 0x40, 0x40]).code.length - 0 < 4) ∧
    ((stateAt [1, 0, 0x07] 2).fault = none ∧ (stateAt [1, 0, 0x07] 2).code[2]? = some 0x07 ∧
      (0x07 : Byte).toNat % 16 ∈ [7, 1] ∧ (stateAt [1, 0, 0x07] 2).code.length - 2 < 2) := by decide

/-- FaultChecksComeInOrder: a running state for each of the four cases. -/
theorem witness_fault_checks :
    ((boot [0x0F]).fault = none ∧ (boot [0x0F]).code[0]? = some 0x0F ∧ (0x0F : Byte).toNat % 16 ∉ [12, 10, 7, 1]) ∧
    ((boot [0x01]).fault = none ∧ (boot [0x01]).code[0]? = some 0x01 ∧ (boot [0x01]).code.length - 0 < 2) ∧
    ((boot [0x0A, 0x40, 0, 0]).fault = none ∧ (boot [0x0A, 0x40, 0, 0]).code[0]? = some 0x0A ∧
      decodeAt (boot [0x0A, 0x40, 0, 0]).code 0 = .instr (.readMem 1024 0) 4) ∧
    ((boot [0xFA, 0x3F, 0, 0]).fault = none ∧ (boot [0xFA, 0x3F, 0, 0]).code[0]? = some 0xFA ∧
      decodeAt (boot [0xFA, 0x3F, 0, 0]).code 0 = .instr (.readMem 1023 0) 4) := by decide

/-- OpcodeAloneDecidesTheLength. -/
theorem witness_byte_at : ([0x21, 0x06] : List Byte)[0]? = some 0x21 ∧
    decodeAt [0x21, 0x06] 0 = .instr (.bitReverse 2 3) 2 := by decide

/-- FetchIsLittleEndian: reads up to the last byte, and the largest word of two bytes. -/
theorem witness_fetch : 1 + 2 ≤ ([1, 2, 3] : List Byte).length ∧ 65535 < 2 ^ (8 * 2) := by decide

/-- DecodeOfEncodeIsTheInstruction: the largest operands; and bytes with and without unused bits. -/
theorem witness_round_trip :
    (Record.mk .loadConst 4194303 31).wellFormed = true ∧
    decodeAt [0x17, 0xCA] 0 = .instr (.writeMem 1 5) ([0x17, 0xCA] : List Byte).length ∧
    decodeAt [0x17, 0x0A] 0 = .instr (.writeMem 1 5) ([0x17, 0x0A] : List Byte).length := by decide

/-- UnusedBitsAreIgnored: a word with its unused bits set. -/
theorem witness_unused_bits : 0xCA17 % 16 = Mnemonic.writeMem.opcode ∧ 0x8400064C % 16 = Mnemonic.loadConst.opcode := by
  decide

/-- EncodeStacksMaskedFields and AssemblyLineIsMnemonicThenBThenC. -/
theorem witness_assembler : mnemonicOfText ['M', 'O', 'V'] = none ∧ decimal ['1', '0', '0'] = some 100 ∧
    decimal ['1'] = some 1 := by decide +kernel

/-- ReadMemSeesTheLatestWrite: an instruction between the two, and a cell no instruction writes. -/
theorem witness_read_after_write :
    Memory.wf (busy []).mem ∧ readAddress 31 = writeAddress 31 ∧
    (∀ r', Instr.writeMem r' 31 ∉ [Instr.writeMem 1 5]) ∧
    readAddress 1023 < 1024 ∧ (∀ r' c, writeAddress c = readAddress 1023 → Instr.writeMem r' c ∉ [Instr.writeMem 1 5]) := by
  refine ⟨by decide, by decide, by simp, by decide, fun r' c hc => ?_⟩
  have := c.isLt
  simp [writeAddress, readAddress] at hc
  omega

/-- CanonicalMemoriesThatReadAlikeAreEqual: two memories built in different orders. -/
theorem witness_memories :
    Memory.wf (Memory.write (Memory.write [] 5 1) 9 2) ∧ Memory.wf (Memory.write (Memory.write [] 9 2) 5 1) ∧
    ∀ a, Memory.read (Memory.write (Memory.write [] 5 1) 9 2) a = Memory.read (Memory.write (Memory.write [] 9 2) 5 1) a := by
  refine ⟨by decide, by decide, fun a => ?_⟩
  rw [show Memory.write (Memory.write [] 5 1) 9 2 = Memory.write (Memory.write [] 9 2) 5 1 by decide]

/-- DumpHoldsTheClampedRange: two states that differ and have one memory. -/
theorem witness_dump : ((boot []).writeReg 1 100).mem = (boot []).mem ∧ (boot []).writeReg 1 100 ≠ boot [] := by
  decide

/-- StepKeepsPcInsideTheBuffer: a state that meets the invariant and steps. -/
theorem witness_pc_invariant : State.PcInv (busy [0x17, 0x0A]) ∧ ∃ t, step (busy [0x17, 0x0A]) = .next t :=
  ⟨⟨by decide, fun r h => nomatch h⟩, _, step_busy⟩

theorem busy_cell (code : List Byte) (a : Nat) : (busy code).cell a = if a = 31 then 7 else 0 :=
  State.cell_writeCell State.reset_mem_wf 31 7 a

theorem busy_readReg (code : List Byte) (i : RegIx) : (busy code).readReg i = if i = 1 then 100 else 0 := by
  rw [busy, State.writeCell_readReg, State.readReg_writeReg]
  exact if_congr Iff.rfl rfl (State.reset_readReg i)

/-- StepKeepsHighCellsZero: a state with a low cell that is not 0. -/
theorem witness_high_cells : Memory.wf (busy [0x17, 0x0A]).mem ∧ State.HighCellsZero (busy [0x17, 0x0A]) ∧
    ∃ t, step (busy [0x17, 0x0A]) = .next t := by
  refine ⟨by decide, fun a ha => ?_, _, step_busy⟩
  rw [busy_cell, if_neg (by omega)]

/-- StepKeepsValuesMakeable: a state whose registers and cells are not all 0. -/
theorem witness_makeable : Memory.wf (busy [0x17, 0x0A]).mem ∧ State.ValueInv (busy [0x17, 0x0A]) ∧
    ∃ t, step (busy [0x17, 0x0A]) = .next t := by
  refine ⟨by decide, ⟨fun i => .inl ?_, fun a => .inl ?_⟩, _, step_busy⟩
  · rw [busy_readReg]; split <;> decide
  · rw [busy_cell]; split <;> decide

/-- RunIsAStraightLineScan: a run of one instruction to the end of the buffer. -/
theorem witness_run_ends :
    (busy [0x17, 0x0A]).fault = none ∧ (busy [0x17, 0x0A]).pc ≤ (busy [0x17, 0x0A]).code.length ∧
    EndsAfter (busy [0x17, 0x0A]) 1 (((busy [0x17, 0x0A]).writeCell 5 100).advance 2) :=
  ⟨rfl, by decide, (runSteps_succ_next step_busy 0).trans rfl, by decide⟩

/-- RunCompletesExactlyWhenTheCodeIsSound: a state in which both sides of the equivalence hold. -/
theorem witness_completes :
    (busy [0x17, 0x0A]).fault = none ∧ (busy [0x17, 0x0A]).pc ≤ (busy [0x17, 0x0A]).code.length ∧
    Parses (busy [0x17, 0x0A]).code (busy [0x17, 0x0A]).pc [.writeMem 1 5] ∧ AddressExists (.writeMem 1 5) :=
  ⟨rfl, by decide, ⟨test_decode_writeMem, rfl⟩, trivial⟩

/-- ControlNeverDependsOnData: two states that differ in a register and a cell. -/
theorem witness_same_control : (busy [0x17, 0x0A]).code = (boot [0x17, 0x0A]).code ∧
    (busy [0x17, 0x0A]).pc = (boot [0x17, 0x0A]).pc ∧ (busy [0x17, 0x0A]).fault = (boot [0x17, 0x0A]).fault ∧
    busy [0x17, 0x0A] ≠ boot [0x17, 0x0A] := by decide

/-- PlacedTableWordRunsNext: a table word of each length. -/
theorem witness_table_word : decodeTableWord 32 0x0000000A = some (.readMem 0 0) ∧
    decodeTableWord 16 0x0001 = some (.bitReverse 0 0) := by decide

end Sys2Proof.Tests
end

section
/-! SUPPORT. The program counter and the fault record over one step (spec/10_state.md R26,
spec/40_sequencer.md R94). -/

namespace Sys2Proof.Machine

/-- An instruction either moves `pc` by its own length and leaves the fault record, or records a fault and
leaves `pc` (R94, R148). -/
theorem Effect.pc_and_fault {s t : State} {i : Instr} (h : Effect s i t) :
    (t.pc = s.pc + i.size ∧ t.fault = s.fault) ∨ (t.pc = s.pc ∧ t.fault ≠ none) := by
  cases h with
  | loadConst b c => exact .inl ⟨rfl, rfl⟩
  | readMem b c _ => exact .inl ⟨rfl, rfl⟩
  | outOfRange b c _ => exact .inr ⟨rfl, by simp⟩
  | writeMem b c => exact .inl ⟨rfl, rfl⟩
  | bitReverse b c => exact .inl ⟨rfl, rfl⟩

/-- A step that answers a next state either faults and leaves `pc`, or completes the instruction that stands
at `pc` and moves `pc` to the byte after it (R91, R94). -/
theorem step_pc_and_fault {s t : State} (h : step s = .next t) :
    (t.fault ≠ none ∧ t.pc = s.pc) ∨
      (t.fault = none ∧ ∃ i, decodeAt s.code s.pc = .instr i i.size ∧ t.pc = s.pc + i.size) := by
  obtain ⟨hs, ⟨k, _, rfl⟩ | ⟨i, n, hd, he⟩⟩ := step_cases h
  · exact .inl ⟨by simp, rfl⟩
  · obtain ⟨rfl, _⟩ := decodeAt_size hd
    rcases (exec_effect he).pc_and_fault with ⟨hpc, hf⟩ | ⟨hpc, hf⟩
    · exact .inr ⟨hf.trans hs, i, hd, hpc⟩
    · exact .inl ⟨hf, hpc⟩

/-- Settles O10: by the two ways a step can end, a fault or an instruction completed. -/
theorem pcAdvancesByTheInstructionsLength : Obligations.PcAdvancesByTheInstructionsLength := by
  intro s t h
  rcases step_pc_and_fault h with ⟨hf, hpc⟩ | ⟨hf, i, hd, hpc⟩
  · exact ⟨fun _ => hpc, fun hn => absurd hn hf⟩
  · exact ⟨fun hn => absurd hf hn, fun _ => ⟨i, i.size, hd, hpc, by cases i <;> rfl⟩⟩

end Sys2Proof.Machine
end

section
/-! SUPPORT. The byte order of instruction words (spec/20_memory.md R44): the value of a byte string as a
sum of its bytes, and each byte of a written word. -/

namespace Sys2Proof

/-- Each byte of a byte string counts 8 bits more than the byte before it. A place past the end counts 0. -/
theorem leValue_take_eq_sum (n : Nat) (bs : List Byte) :
    leValue (bs.take n) = ((List.range n).map fun i => (bs.getD i 0).toNat * 2 ^ (8 * i)).sum := by
  induction n generalizing bs with
  | zero => simp [leValue]
  | succ n ih =>
    cases bs with
    | nil => simp [leValue]
    | cons b bs =>
      have shift (i : Nat) (x : Byte) : x.toNat * 2 ^ (8 * (i + 1)) = 2 ^ 8 * (x.toNat * 2 ^ (8 * i)) := by ring
      rw [List.take_succ_cons, leValue, ih, List.range_succ_eq_map, List.map_cons, List.sum_cons, List.map_map,
        ← List.sum_map_mul_left]
      simp [Function.comp_def, shift]

/-- The code read is the sum of its bytes, the byte at the lowest offset least significant. -/
theorem codeRead_eq_sum (code : List Byte) (k n : Nat) :
    codeRead code k n = ((List.range n).map fun i => (code.getD (k + i) 0).toNat * 2 ^ (8 * i)).sum := by
  have hget (i : Nat) : (code.drop k).getD i 0 = code.getD (k + i) 0 := by simp [List.getD]
  simp only [codeRead, leValue_take_eq_sum, hget]

/-- The bytes written for a word are read back as the word, cut to their number. -/
theorem codeRead_bytesLE (n w : Nat) : codeRead (bytesLE n w) 0 n = w % 2 ^ (8 * n) := by
  simpa [leValue_bytesLE] using codeRead_append [] (bytesLE n w) []

/-- Byte `i` of the bytes written for a word holds bits `8 * i + 7` to `8 * i` of the word. -/
theorem bytesLE_getD_toNat {n i : Nat} (hi : i < n) (w : Nat) :
    ((bytesLE n w).getD i 0).toNat = w / 2 ^ (8 * i) % 2 ^ 8 := by
  induction n generalizing i w with
  | zero => omega
  | succ n ih =>
    cases i with
    | zero => simp [bytesLE]
    | succ i =>
      calc ((bytesLE (n + 1) w).getD (i + 1) 0).toNat
          = ((bytesLE n (w / 2 ^ 8)).getD i 0).toNat := by rw [bytesLE, List.getD_cons_succ]
        _ = w / 2 ^ 8 / 2 ^ (8 * i) % 2 ^ 8 := ih (by omega) _
        _ = w / 2 ^ (8 * (i + 1)) % 2 ^ 8 := by
          rw [Nat.div_div_eq_div_mul, ← Nat.pow_add, Nat.mul_add_one, Nat.add_comm]

/-- Settles O18: the read is a sum by induction on its length, and a written word is read back uncut when it
fits its bytes. -/
theorem fetchIsLittleEndian : Obligations.FetchIsLittleEndian :=
  ⟨fun code k n _ => codeRead_eq_sum code k n,
    fun n w hw => ⟨(codeRead_bytesLE n w).trans (Nat.mod_eq_of_lt hw), fun _ hi => bytesLE_getD_toNat hi w⟩⟩

end Sys2Proof
end

section
/-! SUPPORT. The decoder at an offset with a byte (spec/30_encoding.md R62, R70, R73): which answer it gives
there, and when. -/

namespace Sys2Proof

/-- The decoder answers an instruction exactly where the byte's low nibble is an opcode and all bytes of its
length are left; the instruction is the one of the word read there (R73). -/
theorem decodeAt_eq_instr {code : List Byte} {k n : Nat} {i : Instr} :
    decodeAt code k = .instr i n ↔ ∃ b0 m, code[k]? = some b0 ∧ lowNibble b0 = m.opcode ∧
      m.size ≤ code.length - k ∧ i = instrOfWord m (codeRead code k m.size) ∧ n = m.size := by
  constructor
  · intro h
    rcases decodeAt_cases code k with ⟨_, e⟩ | ⟨hk, ⟨_, e⟩ | ⟨m, hm, ⟨_, e⟩ | ⟨hs, e⟩⟩⟩
    · simp [e] at h
    · simp [e] at h
    · simp [e] at h
    · obtain ⟨rfl, rfl⟩ := Decoded.instr.inj (h.symm.trans e)
      exact ⟨code[k], m, List.getElem?_eq_getElem hk, mnemonicOf_eq_some.mp hm, hs, rfl, rfl⟩
  · rintro ⟨b0, m, hb, hm, hs, rfl, rfl⟩
    simp [decodeAt, hb, mnemonicOf_eq_some.mpr hm, Nat.not_lt.mpr hs]

/-- At an offset with a byte the decoder answers UnknownOpcode exactly where the low nibble is no opcode,
however many bytes are left (R70). -/
theorem decodeAt_eq_unknownOpcode {code : List Byte} {k : Nat} {b0 : Byte} (hb : code[k]? = some b0) :
    decodeAt code k = .fault .unknownOpcode ↔ mnemonicOf (lowNibble b0) = none := by
  cases hm : mnemonicOf (lowNibble b0) with
  | none => simp [decodeAt, hb, hm]
  | some m =>
    simp only [decodeAt, hb, hm, reduceCtorEq, iff_false]
    split <;> simp

/-- The length of a mnemonic as a function of its opcode (R62). -/
theorem Mnemonic.size_eq_of_opcode (m : Mnemonic) :
    m.size = if m.opcode = 12 ∨ m.opcode = 10 then 4 else 2 := by
  cases m <;> rfl

/-- Settles O17: a decoded instruction has the mnemonic its nibble selects, and no mnemonic is selected
exactly by the other nibbles. -/
theorem opcodeAloneDecidesTheLength : Obligations.OpcodeAloneDecidesTheLength := by
  intro code k b0 hb
  constructor
  · intro i n h
    obtain ⟨b, m, hb', hm, _, _, rfl⟩ := decodeAt_eq_instr.mp h
    obtain rfl := Option.some.inj (hb.symm.trans hb')
    rw [show b0.toNat % 16 = m.opcode from hm]
    exact m.size_eq_of_opcode
  · rw [decodeAt_eq_unknownOpcode hb, mnemonicOf_eq_none]
    simp [lowNibble]

end Sys2Proof
end

section
/-! SUPPORT. The fields of an instruction word (spec/30_encoding.md R67, R75) and the round trip of encoder
and decoder (R77): first between records and words, then between words and bytes. -/

namespace Sys2Proof

/-- The number of bits an instruction word uses: the opcode, B and C (R60, R61). -/
def Mnemonic.usedBits (m : Mnemonic) : Nat := 4 + m.widthB + m.widthC

/-- The used bits fit in the bytes of the instruction. -/
theorem Mnemonic.usedBits_le (m : Mnemonic) : m.usedBits ≤ 8 * m.size := by
  cases m <;> decide

theorem Mnemonic.opcode_lt (m : Mnemonic) : m.opcode < 2 ^ 4 := by
  cases m <;> decide

theorem operandB_eq (m : Mnemonic) (w : Nat) : operandB m w = w / 2 ^ 4 % 2 ^ m.widthB := by
  rw [operandB, Nat.and_two_pow_sub_one_eq_mod, Nat.shiftRight_eq_div_pow]

theorem operandC_eq (m : Mnemonic) (w : Nat) : operandC m w = w / 2 ^ 4 / 2 ^ m.widthB % 2 ^ m.widthC := by
  rw [operandC, Nat.and_two_pow_sub_one_eq_mod, Nat.shiftRight_eq_div_pow, Nat.pow_add, Nat.div_div_eq_div_mul]

/-- A number that fits in the bits below a shifted one stands beside it. -/
theorem or_shiftLeft_eq_add {x n : Nat} (h : x < 2 ^ n) (y : Nat) : x ||| y <<< n = x + 2 ^ n * y := by
  rw [Nat.or_comm, ← Nat.shiftLeft_add_eq_or_of_lt h, Nat.shiftLeft_eq, Nat.add_comm, Nat.mul_comm]

/-- The encoded word is opcode, B and C stacked, each cut to its width (R75, R76). -/
theorem encodeWord_eq (r : Record) :
    encodeWord r =
      r.m.opcode + 2 ^ 4 * (r.b % 2 ^ r.m.widthB + 2 ^ r.m.widthB * (r.c % 2 ^ r.m.widthC)) := by
  have hb : r.b % 2 ^ r.m.widthB < 2 ^ r.m.widthB := Nat.mod_lt _ (Nat.two_pow_pos _)
  rw [encodeWord, Nat.and_two_pow_sub_one_eq_mod, Nat.and_two_pow_sub_one_eq_mod, Nat.add_comm 4,
    Nat.shiftLeft_add, Nat.or_assoc, ← Nat.shiftLeft_or_distrib, or_shiftLeft_eq_add hb,
    or_shiftLeft_eq_add r.m.opcode_lt]

/-- The bits of an encoded word above its opcode. -/
theorem encodeWord_div (r : Record) :
    encodeWord r / 2 ^ 4 = r.b % 2 ^ r.m.widthB + 2 ^ r.m.widthB * (r.c % 2 ^ r.m.widthC) := by
  rw [encodeWord_eq, Nat.add_mul_div_left _ _ (Nat.two_pow_pos 4), Nat.div_eq_of_lt r.m.opcode_lt, Nat.zero_add]

theorem operandB_encodeWord (r : Record) : operandB r.m (encodeWord r) = r.b % 2 ^ r.m.widthB := by
  rw [operandB_eq, encodeWord_div, Nat.add_mul_mod_self_left, Nat.mod_mod]

theorem operandC_encodeWord (r : Record) : operandC r.m (encodeWord r) = r.c % 2 ^ r.m.widthC := by
  rw [operandC_eq, encodeWord_div, Nat.add_mul_div_left _ _ (Nat.two_pow_pos _),
    Nat.div_eq_of_lt (Nat.mod_lt _ (Nat.two_pow_pos _)), Nat.zero_add, Nat.mod_mod]

/-- The instruction of a record holds the operands cut to their fields. -/
theorem Record.instr_record (r : Record) :
    r.instr.record = ⟨r.m, r.b % 2 ^ r.m.widthB, r.c % 2 ^ r.m.widthC⟩ := by
  obtain ⟨m, b, c⟩ := r
  cases m <;> simp [Record.instr, Instr.record, Mnemonic.widthB, Mnemonic.widthC]

/-- The record of a decoded word is the mnemonic and the word's two fields (R68). -/
theorem instrOfWord_record (m : Mnemonic) (w : Nat) :
    (instrOfWord m w).record = ⟨m, operandB m w, operandC m w⟩ := by
  rw [instrOfWord, Record.instr_record]
  simp [operandB_eq, operandC_eq]

/-- A well-formed record comes back from its word: decode after encode, on words (R77). -/
theorem instrOfWord_encodeWord_record {r : Record} (h : r.wellFormed = true) :
    (instrOfWord r.m (encodeWord r)).record = r := by
  obtain ⟨hb, hc⟩ : r.b < 2 ^ r.m.widthB ∧ r.c < 2 ^ r.m.widthC := by
    simpa [Record.wellFormed, Record.fitsB, Record.fitsC] using h
  rw [instrOfWord_record, operandB_encodeWord, operandC_encodeWord, Nat.mod_eq_of_lt hb, Nat.mod_eq_of_lt hc]

/-- A word with the mnemonic's opcode comes back from its instruction with the unused bits cleared: encode
after decode, on words (R69). -/
theorem encodeWord_instrOfWord_record {m : Mnemonic} {w : Nat} (h : w % 16 = m.opcode) :
    encodeWord (instrOfWord m w).record = w % 2 ^ m.usedBits := by
  calc encodeWord (instrOfWord m w).record
      = m.opcode + 2 ^ 4 * (w / 2 ^ 4 % 2 ^ m.widthB + 2 ^ m.widthB * (w / 2 ^ 4 / 2 ^ m.widthB % 2 ^ m.widthC)) := by
        simp only [instrOfWord_record, encodeWord_eq, operandB_eq, operandC_eq, Nat.mod_mod]
    _ = w % 2 ^ 4 + 2 ^ 4 * (w / 2 ^ 4 % (2 ^ m.widthB * 2 ^ m.widthC)) := by
        rw [← Nat.mod_mul, show w % 2 ^ 4 = m.opcode from h]
    _ = w % 2 ^ m.usedBits := by rw [← Nat.mod_mul, Mnemonic.usedBits, Nat.pow_add, Nat.pow_add, Nat.mul_assoc]

/-- An encoded word has no bit above field C (R69). -/
theorem encodeWord_lt (r : Record) : encodeWord r < 2 ^ r.m.usedBits := by
  have hcut : encodeWord r = encodeWord r % 2 ^ r.m.usedBits := by
    rw [← encodeWord_instrOfWord_record (Laws.encodeWord_mod_opcode r), instrOfWord_record,
      operandB_encodeWord, operandC_encodeWord]
    simp [encodeWord_eq]
  rw [hcut]
  exact Nat.mod_lt _ (Nat.two_pow_pos _)

/-- The bytes of the value of a byte string are the byte string (R44). -/
theorem bytesLE_leValue (bs : List Byte) : bytesLE bs.length (leValue bs) = bs := by
  induction bs with
  | nil => rfl
  | cons b bs ih =>
    have hhead : BitVec.ofNat 8 (leValue (b :: bs)) = b := by
      apply BitVec.eq_of_toNat_eq
      have := b.isLt
      simp only [leValue, BitVec.toNat_ofNat]
      omega
    have htail : leValue (b :: bs) / 2 ^ 8 = leValue bs := by
      have := b.isLt
      simp only [leValue]
      omega
    rw [List.length_cons, bytesLE, hhead, htail, ih]

/-- The low nibble of the first byte is the low nibble of the whole word. -/
theorem leValue_mod_16 (b : Byte) (bs : List Byte) : leValue (b :: bs) % 16 = lowNibble b := by
  simp only [leValue, lowNibble]
  omega

/-- A buffer decodes whole exactly when it is as long as the mnemonic that its word's low nibble selects; the
instruction is the one of that word. -/
theorem decodeAt_whole {bs : List Byte} {i : Instr} :
    decodeAt bs 0 = .instr i bs.length ↔
      ∃ m, leValue bs % 16 = m.opcode ∧ bs.length = m.size ∧ i = instrOfWord m (leValue bs) := by
  have hread : codeRead bs 0 bs.length = leValue bs := by simp [codeRead]
  rw [decodeAt_eq_instr]
  constructor
  · rintro ⟨b0, m, hb, hm, _, hi, hn⟩
    rw [← hn, hread] at hi
    obtain ⟨tl, rfl⟩ : ∃ tl, bs = b0 :: tl := by
      cases bs with
      | nil => simp at hb
      | cons b tl => exact ⟨tl, by simpa using hb⟩
    exact ⟨m, by rw [leValue_mod_16, hm], hn, hi⟩
  · rintro ⟨m, hm, hn, hi⟩
    cases bs with
    | nil => cases m <;> simp [Mnemonic.size] at hn
    | cons b tl => exact ⟨b, m, rfl, by rw [← leValue_mod_16 b tl, hm], hn.ge, by rw [← hn, hread, hi], hn⟩

/-- The value of a record's bytes is its word: no bit of the word is lost. -/
theorem leValue_encode (r : Record) : leValue r.encode = encodeWord r := by
  rw [Record.encode, leValue_bytesLE]
  exact Nat.mod_eq_of_lt ((encodeWord_lt r).trans_le (Nat.pow_le_pow_right (by decide) r.m.usedBits_le))

/-- The bytes of a record decode whole, to the instruction of its word. -/
theorem decodeAt_encode (r : Record) :
    decodeAt r.encode 0 = .instr (instrOfWord r.m (encodeWord r)) r.m.size := by
  have hlen : r.encode.length = r.m.size := bytesLE_length _ _
  rw [← hlen]
  exact decodeAt_whole.mpr ⟨r.m, by rw [leValue_encode, Laws.encodeWord_mod_opcode], hlen, by rw [leValue_encode]⟩

/-- Bytes that decode whole are the encoding of what they decode to exactly where the word has no unused bit
set: both have one length, and the encoding's word is theirs with the unused bits cleared. -/
theorem encode_eq_iff_of_decodeAt_whole {bs : List Byte} {i : Instr} (h : decodeAt bs 0 = .instr i bs.length) :
    encode i = bs ↔ leValue bs < 2 ^ i.mnemonic.usedBits := by
  obtain ⟨m, hop, hlen, rfl⟩ := decodeAt_whole.mp h
  have hword := encodeWord_instrOfWord_record hop
  rw [instrOfWord_mnemonic]
  constructor
  · intro he
    rw [← he, encode, leValue_encode, hword]
    exact Nat.mod_lt _ (Nat.two_pow_pos _)
  · intro hlt
    rw [encode, Record.encode, hword, Nat.mod_eq_of_lt hlt, instrOfWord_record, ← hlen, bytesLE_leValue]

/-- Settles O19: by the round trips on words, from records and from words, carried over to bytes. -/
theorem decodeOfEncodeIsTheInstruction : Obligations.DecodeOfEncodeIsTheInstruction := by
  refine ⟨fun r hr => ?_, fun bs i h => encode_eq_iff_of_decodeAt_whole h⟩
  have hrec := instrOfWord_encodeWord_record hr
  exact ⟨_, decodeAt_encode r, hrec, by rw [encode, hrec]⟩

end Sys2Proof
end

section
/-! SUPPORT. An instruction word that stands at `pc` in a code buffer (spec/30_encoding.md R67, R73,
spec/40_sequencer.md R91): what it decodes to, and the step that runs it. -/

namespace Sys2Proof

/-- The low nibble of the first byte of a written word is the low nibble of the word (R44, R62). -/
theorem lowNibble_ofNat (w : Nat) : lowNibble (BitVec.ofNat 8 w) = w % 16 := by
  simp only [lowNibble, BitVec.toNat_ofNat]
  omega

/-- A word with a mnemonic's opcode decodes wherever its bytes stand, to that mnemonic's instruction (R73). -/
theorem decodeAt_append {m : Mnemonic} {w : Nat} (hop : w % 16 = m.opcode) (pre post : List Byte) :
    decodeAt (pre ++ bytesLE m.size w ++ post) pre.length =
      .instr (instrOfWord m (w % 2 ^ (8 * m.size))) m.size := by
  have hfirst : (pre ++ bytesLE m.size w ++ post)[pre.length]? = some (BitVec.ofNat 8 w) := by
    cases m <;> simp [Mnemonic.size, bytesLE]
  have hread : codeRead (pre ++ bytesLE m.size w ++ post) pre.length m.size = w % 2 ^ (8 * m.size) := by
    simpa [leValue_bytesLE] using codeRead_append pre (bytesLE m.size w) post
  refine decodeAt_eq_instr.mpr ⟨_, m, hfirst, by rw [lowNibble_ofNat, hop], ?_, by rw [hread], rfl⟩
  simp

/-- The opcode field of a word of any width, as a number. -/
theorem toNat_mod_16_of_extractLsb' {n : Nat} {w : BitVec n} {op : BitVec 4} (h : w.extractLsb' 0 4 = op) :
    w.toNat % 16 = op.toNat := by
  simp [← h]

/-- The fields of a WRITE_MEM word: `B = w[8:4]`, `C = w[13:9]` (R65, R67). -/
theorem instrOfWord_writeMem (w : BitVec 16) :
    instrOfWord .writeMem w.toNat = .writeMem (w.extractLsb' 4 5).toFin (w.extractLsb' 9 5) := by
  have hb : Fin.ofNat Config.numRegs (operandB .writeMem w.toNat) = (w.extractLsb' 4 5).toFin := by
    apply Fin.ext
    simp [operandB_eq, Mnemonic.widthB, Nat.shiftRight_eq_div_pow]
  have hc : BitVec.ofNat 5 (operandC .writeMem w.toNat) = w.extractLsb' 9 5 := by
    apply BitVec.eq_of_toNat_eq
    simp [operandC_eq, Mnemonic.widthB, Mnemonic.widthC, Nat.shiftRight_eq_div_pow, Nat.div_div_eq_div_mul]
  rw [instrOfWord, ← hb, ← hc]
  rfl

end Sys2Proof

namespace Sys2Proof.Machine

/-- With no fault recorded, a step is the execution of the instruction decoded at `pc` (R91). -/
theorem step_of_decodeAt {s : State} {i : Instr} {n : Nat} (hf : s.fault = none)
    (hd : decodeAt s.code s.pc = .instr i n) : step s = exec i s := by
  have hfetch : s.fetch = .instr i n := hd
  rw [step, hf]
  simp only [hfetch]

/-- A running state executes the instruction word that stands at `pc` (R91). -/
theorem step_of_word_at_pc {m : Mnemonic} {n : Nat} {w : BitVec n} (hn : n = 8 * m.size)
    (hop : w.toNat % 16 = m.opcode) {pre post : List Byte} {s : State} (hf : s.fault = none)
    (hcode : s.code = pre ++ bytesLE m.size w.toNat ++ post) (hpc : s.pc = pre.length) :
    step s = exec (instrOfWord m w.toNat) s := by
  have hd := decodeAt_append hop pre post
  rw [← hn, Nat.mod_eq_of_lt w.isLt, ← hcode, ← hpc] at hd
  exact step_of_decodeAt hf hd

end Sys2Proof.Machine
end

section
/-! SUPPORT. WRITE_MEM (spec/42_memory_access.md R121). -/

namespace Sys2Proof.Machine

/-- Settles O5: the effect is one cell written and `pc` advanced, so the laws of those two updates give the
cell and the frame; the word at `pc` decodes to WRITE_MEM of its two fields, whatever its unused bits. -/
theorem writeMemStoresTheRegister : Obligations.WriteMemStoresTheRegister := by
  refine ⟨fun b c s hwf => ⟨_, exec_writeMem b c s, rfl, ?cell, fun a ha => ?frame, fun _ => rfl, rfl, rfl, rfl⟩,
    fun w pre post s hop _ hf hcode hpc => ?word⟩
  case cell => rw [State.advance_cell, State.cell_writeCell hwf, if_pos rfl]
  case frame => rw [State.advance_cell, State.cell_writeCell hwf, if_neg ha]
  case word =>
    rw [← instrOfWord_writeMem]
    exact step_of_word_at_pc rfl (toNat_mod_16_of_extractLsb' hop) hf hcode hpc

end Sys2Proof.Machine
end

section
/-! SUPPORT. BITREVERSE (spec/43_bitreverse.md R130). -/

namespace Sys2Proof

/-- The fields of a BITREVERSE word: `B = w[8:4]`, `C = w[13:9]` (R65, R67). -/
theorem instrOfWord_bitReverse (w : BitVec 16) :
    instrOfWord .bitReverse w.toNat = .bitReverse (w.extractLsb' 4 5).toFin (w.extractLsb' 9 5).toFin := by
  have hb : Fin.ofNat Config.numRegs (operandB .bitReverse w.toNat) = (w.extractLsb' 4 5).toFin := by
    apply Fin.ext
    simp [operandB_eq, Mnemonic.widthB, Nat.shiftRight_eq_div_pow]
  have hc : Fin.ofNat Config.numRegs (operandC .bitReverse w.toNat) = (w.extractLsb' 9 5).toFin := by
    apply Fin.ext
    simp [operandC_eq, Mnemonic.widthB, Mnemonic.widthC, Nat.shiftRight_eq_div_pow, Nat.div_div_eq_div_mul]
  rw [instrOfWord, ← hb, ← hc]
  rfl

end Sys2Proof

namespace Sys2Proof.Machine

/-- Settles O6: the effect is one register written with the reversal of a value read before the write, so the
laws of the register write give result and frame, `B = C` included; the word at `pc` decodes to BITREVERSE of
its two fields, whatever its unused bits. -/
theorem bitReverseReversesAllBits : Obligations.BitReverseReversesAllBits := by
  refine ⟨fun b c s =>
      ⟨_, exec_bitReverse b c s, fun i hi => ?result, fun r hr => ?frame, fun _ => rfl, rfl, rfl, rfl⟩,
    fun w pre post s hop _ hf hcode hpc => ?word⟩
  case result => rw [State.advance_readReg, State.readReg_writeReg_same, bitreverse32_getLsbD _ hi]
  case frame => rw [State.advance_readReg, State.readReg_writeReg_ne _ _ _ hr]
  case word =>
    rw [← instrOfWord_bitReverse]
    exact step_of_word_at_pc rfl (toNat_mod_16_of_extractLsb' hop) hf hcode hpc

end Sys2Proof.Machine
end

section
/-! SUPPORT. The host's dump of the data memory (spec/70_reset_and_hazards.md R176). -/

namespace Sys2Proof.Machine

/-- The dump holds the cells that exist and lie in the requested range, each with its content (R176). -/
theorem State.mem_dump {s : State} {lo hi : Int} {a : Nat} {v : Word} :
    (a, v) ∈ s.dump lo hi ↔ (a < Config.memCells ∧ lo ≤ (a : Int) ∧ (a : Int) < hi) ∧ v = s.cell a := by
  simp only [State.dump, List.mem_map, List.mem_filter, List.mem_range, Bool.and_eq_true, decide_eq_true_eq,
    Prod.mk.injEq]
  constructor
  · rintro ⟨_, ⟨hcell, hlo, hhi⟩, rfl, rfl⟩
    exact ⟨⟨hcell, hlo, hhi⟩, rfl⟩
  · rintro ⟨⟨hcell, hlo, hhi⟩, rfl⟩
    exact ⟨a, ⟨hcell, hlo, hhi⟩, rfl, rfl⟩

/-- The dump lists its addresses in rising order: it keeps the order of the cells it is chosen from. -/
theorem State.dump_pairwise_lt (s : State) (lo hi : Int) : (s.dump lo hi).Pairwise (fun p q => p.1 < q.1) :=
  List.pairwise_map.mpr (List.pairwise_lt_range.filter _)

/-- The dump reads `M` only (R176). -/
theorem State.dump_congr_mem {s s' : State} (h : s'.mem = s.mem) (lo hi : Int) : s'.dump lo hi = s.dump lo hi := by
  have hcell : s'.cell = s.cell := by
    funext a
    rw [State.cell, State.cell, h]
  rw [State.dump, State.dump, hcell]

/-- A cell that exists lies in the requested range exactly where it lies in the clamped one (R176). -/
theorem mem_clampedRange_iff {lo hi : Int} {a : Nat} :
    max lo 0 ≤ (a : Int) ∧ (a : Int) < min hi 1024 ↔ a < Config.memCells ∧ lo ≤ (a : Int) ∧ (a : Int) < hi := by
  rw [Config.memCells]
  omega

/-- Settles O26: the dump's membership law, its range clamped, then its order and what it reads. -/
theorem dumpHoldsTheClampedRange : Obligations.DumpHoldsTheClampedRange := by
  refine fun s lo hi => ⟨fun a v => ?_, s.dump_pairwise_lt lo hi, fun s' h => State.dump_congr_mem h lo hi⟩
  rw [State.mem_dump, ← mem_clampedRange_iff, and_assoc]

end Sys2Proof.Machine
end

section
/-! SUPPORT. What a step answers in each run status, and the two ways it can answer a next state: a fault
recorded, or an instruction completed (spec/40_sequencer.md R91, R92, R94, spec/60_exceptions.md R148). -/

namespace Sys2Proof

/-- Every instruction is at least two bytes long (R61). -/
theorem Instr.two_le_size (i : Instr) : 2 ≤ i.size := by
  rw [Instr.size]
  cases i.mnemonic <;> decide

/-- The decoder answers `endOfBuffer` exactly where there is no byte. -/
theorem decodeAt_eq_endOfBuffer {code : List Byte} {k : Nat} :
    decodeAt code k = .endOfBuffer ↔ code.length ≤ k := by
  rcases decodeAt_cases code k with ⟨hk, e⟩ | ⟨hk, ⟨_, e⟩ | ⟨m, _, ⟨_, e⟩ | ⟨_, e⟩⟩⟩
  · simp [e, hk]
  all_goals simp [e, hk]

end Sys2Proof

namespace Sys2Proof.Machine

/-- With a fault recorded the step stops and surfaces the record (R92, R148). -/
theorem step_of_faulted {s : State} {r : FaultRecord} (hf : s.fault = some r) :
    step s = .fault (.faulted r) := by
  rw [step, hf]

/-- At the end of the buffer the step stops as halted (R92). -/
theorem step_of_exhausted {s : State} (hf : s.fault = none) (hpc : s.code.length ≤ s.pc) :
    step s = .fault .halted := by
  have hfetch : s.fetch = .endOfBuffer := decodeAt_eq_endOfBuffer.mpr hpc
  rw [step, hf]
  simp only [hfetch]

/-- A decode fault at `pc` is recorded there and changes nothing else (R91, R148). -/
theorem step_of_decode_fault {s : State} {k : FaultKind} (hf : s.fault = none)
    (hd : decodeAt s.code s.pc = .fault k) : step s = .next (s.raise k) := by
  have hfetch : s.fetch = .fault k := hd
  rw [step, hf]
  simp only [hfetch]

/-- In the status running the bytes at `pc` decode to an instruction, which the step executes, or to a fault,
which the step records (R91). -/
theorem step_of_running {s : State} (hf : s.fault = none) (hpc : s.pc < s.code.length) :
    (∃ i, decodeAt s.code s.pc = .instr i i.size ∧ step s = exec i s) ∨
      (∃ k, decodeAt s.code s.pc = .fault k ∧ step s = .next (s.raise k)) := by
  cases hd : decodeAt s.code s.pc with
  | instr i n =>
    obtain ⟨rfl, _⟩ := decodeAt_size hd
    exact .inl ⟨i, rfl, step_of_decodeAt hf hd⟩
  | fault k => exact .inr ⟨k, rfl, step_of_decode_fault hf hd⟩
  | endOfBuffer => exact absurd (decodeAt_eq_endOfBuffer.mp hd) (by omega)

/-- The three run statuses and what a step answers in each (R31, R92). -/
theorem step_by_status (s : State) :
    (∃ r, s.fault = some r ∧ step s = .fault (.faulted r)) ∨
      (s.fault = none ∧ s.code.length ≤ s.pc ∧ step s = .fault .halted) ∨
      (s.fault = none ∧ s.pc < s.code.length ∧ ∃ t, step s = .next t) := by
  cases hf : s.fault with
  | some r => exact .inl ⟨r, rfl, step_of_faulted hf⟩
  | none =>
    rcases Nat.lt_or_ge s.pc s.code.length with hpc | hpc
    · refine .inr (.inr ⟨rfl, hpc, ?_⟩)
      rcases step_of_running hf hpc with ⟨i, _, hs⟩ | ⟨k, _, hs⟩
      · obtain ⟨t, ht, _⟩ := exec_next i s
        exact ⟨t, hs.trans ht⟩
      · exact ⟨_, hs⟩
    · exact .inr (.inl ⟨rfl, hpc, step_of_exhausted hf hpc⟩)

/-- A step answers a next state exactly in the status running (R91, R92). -/
theorem step_next_iff {s : State} : (∃ t, step s = .next t) ↔ s.fault = none ∧ s.pc < s.code.length := by
  rcases step_by_status s with ⟨r, hf, hs⟩ | ⟨hf, hpc, hs⟩ | ⟨hf, hpc, t, hs⟩
  · simp [hf, hs]
  · simp [hf, hs, hpc]
  · simp [hf, hs, hpc]

/-- A step stops as halted exactly in the status halted (R31, R92). -/
theorem step_halted_iff {s : State} : step s = .fault .halted ↔ s.fault = none ∧ s.code.length ≤ s.pc := by
  rcases step_by_status s with ⟨r, hf, hs⟩ | ⟨hf, hpc, hs⟩ | ⟨hf, hpc, t, hs⟩
  · simp [hf, hs]
  · simp [hf, hs, hpc]
  · simp [hf, hs, hpc]

/-- A step stops as faulted, with the record, exactly in the status faulted (R31, R92, R148). -/
theorem step_faulted_iff {s : State} {r : FaultRecord} :
    step s = .fault (.faulted r) ↔ s.fault = some r := by
  rcases step_by_status s with ⟨r', hf, hs⟩ | ⟨hf, _, hs⟩ | ⟨hf, _, t, hs⟩
  · simp [hf, hs]
  · simp [hf, hs]
  · simp [hf, hs]

/-- No step refuses its instruction (R99). -/
theorem step_ne_refused (s : State) (r : Refusal) : step s ≠ .refused r := by
  rcases step_by_status s with ⟨_, _, hs⟩ | ⟨_, _, hs⟩ | ⟨_, _, t, hs⟩
  all_goals simp [hs]

/-- Settles O9: the three statuses exclude each other, and the step answers each in its own way. -/
theorem stepIsDefinedExactlyWhenRunning : Obligations.StepIsDefinedExactlyWhenRunning := by
  intro s
  refine ⟨step_next_iff, step_halted_iff, fun _ => step_faulted_iff, step_ne_refused s,
    s.status_running_iff, s.status_halted_iff, ?_⟩
  rw [State.status_faulted_iff, Option.ne_none_iff_exists']

/-- Instruction `i` leads from `s` to `t` without a fault: the code buffer and the fault record are kept and
`pc` is at the byte after the instruction (R94). -/
structure Completes (i : Instr) (s t : State) : Prop where
  next : exec i s = .next t
  address_exists : AddressExists i
  pc_eq : t.pc = s.pc + i.size
  fault_eq : t.fault = s.fault
  code_eq : t.code = s.code

/-- An instruction whose address exists completes from every state, whatever registers and memory hold. -/
theorem exec_completes {i : Instr} (h : AddressExists i) (s : State) : ∃ t, Completes i s t := by
  obtain ⟨t, ht, he⟩ := exec_next i s
  have hcontrol : t.pc = s.pc + i.size ∧ t.fault = s.fault ∧ t.code = s.code := by
    cases he with
    | outOfRange b c hb => exact absurd h (Nat.not_lt.mpr hb)
    | _ => exact ⟨rfl, rfl, rfl⟩
  obtain ⟨hpc, hf, hcode⟩ := hcontrol
  exact ⟨t, ht, h, hpc, hf, hcode⟩

/-- The one fault of execution: a READ_MEM of an address that does not exist (R143, R144). -/
theorem not_addressExists_iff {i : Instr} :
    ¬ AddressExists i ↔ ∃ b c, i = .readMem b c ∧ Config.memCells ≤ readAddress b := by
  cases i <;> simp [AddressExists]

/-- An instruction whose address does not exist faults in every state and changes nothing else (R120). -/
theorem exec_of_not_addressExists {i : Instr} (h : ¬ AddressExists i) (s : State) :
    exec i s = .next (s.raise .addressOutOfRange) := by
  obtain ⟨b, c, rfl, hb⟩ := not_addressExists_iff.mp h
  exact exec_readMem_of_ge hb c s

/-- The two ways an instruction answers a next state: the address fault, or completion. -/
theorem exec_faults_or_completes {i : Instr} {s t : State} (h : exec i s = .next t) :
    t = s.raise .addressOutOfRange ∨ Completes i s t := by
  by_cases hi : AddressExists i
  · obtain ⟨u, hu⟩ := exec_completes hi s
    obtain rfl := Host.Outcome.next.inj (hu.next.symm.trans h)
    exact .inr hu
  · exact .inl (Host.Outcome.next.inj (h.symm.trans (exec_of_not_addressExists hi s)))

/-- The two ways a step answers a next state: it records a fault and changes nothing else, or it completes the
instruction that stands at `pc`. -/
theorem step_faults_or_completes {s t : State} (h : step s = .next t) :
    (∃ k, t = s.raise k) ∨ ∃ i, decodeAt s.code s.pc = .instr i i.size ∧ Completes i s t := by
  obtain ⟨_, ⟨k, _, rfl⟩ | ⟨i, n, hd, he⟩⟩ := step_cases h
  · exact .inl ⟨k, rfl⟩
  · obtain ⟨rfl, _⟩ := decodeAt_size hd
    exact (exec_faults_or_completes he).imp (fun ht => ⟨_, ht⟩) (fun hi => ⟨i, hd, hi⟩)

/-- A completed instruction ends inside the buffer it was decoded from. -/
theorem Completes.pc_le {i : Instr} {s t : State} (h : Completes i s t)
    (hd : decodeAt s.code s.pc = .instr i i.size) : t.pc ≤ t.code.length := by
  rw [h.pc_eq, h.code_eq]
  exact (decodeAt_size hd).2

/-- No step changes the code buffer (R36). -/
theorem step_code {s t : State} (h : step s = .next t) : t.code = s.code := by
  rcases step_faults_or_completes h with ⟨k, rfl⟩ | ⟨i, _, hi⟩
  · rfl
  · exact hi.code_eq

/-- Settles O28: a fault is recorded at `pc`, which a running state has inside the buffer; a completed
instruction ends inside the buffer and records none. -/
theorem stepKeepsPcInsideTheBuffer : Obligations.StepKeepsPcInsideTheBuffer := by
  intro s t hs h
  obtain ⟨hf, hpc⟩ := step_next_iff.mp ⟨t, h⟩
  rcases step_faults_or_completes h with ⟨k, rfl⟩ | ⟨i, hd, hi⟩
  · refine ⟨hs.pc_le, fun r hr => ?_⟩
    obtain rfl := Option.some.inj hr
    exact ⟨rfl, hpc⟩
  · refine ⟨hi.pc_le hd, fun r hr => ?_⟩
    rw [hi.fault_eq, hf] at hr
    cases hr

end Sys2Proof.Machine
end

section
/-! SUPPORT. `bitreverse32` as an involution and its laws (spec/43_bitreverse.md R131). -/

namespace Sys2Proof.Machine

/-- Law 2: reversing twice changes nothing. -/
theorem bitreverse32_involutive : Function.Involutive bitreverse32 := by
  intro v
  refine BitVec.eq_of_getLsbD_eq fun i hi => ?_
  rw [bitreverse32_getLsbD _ hi, bitreverse32_getLsbD _ (by omega), Nat.sub_sub_self (by omega)]

/-- Law 3: a word is its own reversal exactly where it is a bit palindrome. -/
theorem bitreverse32_eq_self_iff {v : Word} :
    bitreverse32 v = v ↔ ∀ i, i < 32 → v.getLsbD i = v.getLsbD (31 - i) := by
  constructor
  · intro h i hi
    rw [← bitreverse32_getLsbD v hi, h]
  · intro h
    refine BitVec.eq_of_getLsbD_eq fun i hi => ?_
    rw [bitreverse32_getLsbD v hi, h i hi]

/-- Law 4: the one bit of a power of 2 moves to the mirrored place. -/
theorem bitreverse32_two_pow {k : Nat} (hk : k < 32) :
    bitreverse32 (BitVec.ofNat 32 (2 ^ k)) = BitVec.ofNat 32 (2 ^ (31 - k)) := by
  refine BitVec.eq_of_getLsbD_eq fun i hi => ?_
  have hmirror : 31 - i < 32 := by omega
  have hplace : k = 31 - i ↔ 31 - k = i := by omega
  rw [bitreverse32_getLsbD _ hi]
  simp only [BitVec.getLsbD_ofNat, Nat.testBit_two_pow, hplace, hi, hmirror]

/-- Law 4: the reversal of an or is the or of the reversals, disjoint or not. -/
theorem bitreverse32_or (u v : Word) : bitreverse32 (u ||| v) = bitreverse32 u ||| bitreverse32 v := by
  refine BitVec.eq_of_getLsbD_eq fun i hi => ?_
  simp only [BitVec.getLsbD_or, bitreverse32_getLsbD _ hi]

/-- Settles O7: the laws one by one; the bijection is that of an involution. -/
theorem bitReversalIsAnInvolution : Obligations.BitReversalIsAnInvolution :=
  ⟨bitreverse32_involutive, fun _ => bitreverse32_eq_self_iff, fun _ => bitreverse32_two_pow,
    fun u v _ => bitreverse32_or u v, bitreverse32_involutive.bijective⟩

end Sys2Proof.Machine
end

section
/-! SUPPORT. The invariants of registers and memory (spec/20_memory.md R50, spec/41_load_const.md R112): each
is kept by the updates of which every effect is made. -/

namespace Sys2Proof.Machine

/-- Every instruction keeps the data memory canonical. -/
theorem Effect.mem_wf {s t : State} {i : Instr} (h : Effect s i t) (hs : Memory.wf s.mem) :
    Memory.wf t.mem := by
  cases h with
  | writeMem b c => exact Memory.write_wf hs (writeAddress_lt c) _
  | _ => exact hs

/-- An instruction changes no cell but the one a WRITE_MEM names (R121). -/
theorem Effect.cell_eq {s t : State} {i : Instr} (h : Effect s i t) (hs : Memory.wf s.mem) {a : Nat}
    (ha : ∀ b c, writeAddress c = a → i ≠ .writeMem b c) : t.cell a = s.cell a := by
  cases h with
  | writeMem b c =>
    rw [State.advance_cell, State.cell_writeCell hs, if_neg]
    rintro rfl
    exact ha b c rfl rfl
  | _ => rfl

/-- A property of states that every fault and every effect keeps is kept by every step. -/
theorem step_preserves {P : State → Prop} {s t : State} (hraise : ∀ k, P (s.raise k))
    (heffect : ∀ i, Effect s i t → P t) (h : step s = .next t) : P t := by
  obtain ⟨_, ⟨k, _, rfl⟩ | ⟨i, _, _, he⟩⟩ := step_cases h
  · exact hraise k
  · exact heffect i (exec_effect he)

/-- Settles O29: only WRITE_MEM touches the memory, and its write keeps the form. -/
theorem stepKeepsMemoryCanonical : Obligations.StepKeepsMemoryCanonical :=
  fun _ _ hs h => step_preserves (P := fun u => Memory.wf u.mem) (fun _ => hs) (fun _ he => he.mem_wf hs) h

/-- WRITE_MEM reaches the cells below 32 only (R50, R122). -/
theorem writeAddress_lt_32 (c : BitVec 5) : writeAddress c < 32 := c.isLt

/-- Settles O30: a cell from 32 on is not the one a WRITE_MEM names, so every effect leaves it. -/
theorem stepKeepsHighCellsZero : Obligations.StepKeepsHighCellsZero := by
  intro s t hs hz h
  refine step_preserves (fun _ => hz) (fun i he a ha => ?_) h
  have hne : ∀ b c, writeAddress c = a → i ≠ .writeMem b c := by
    rintro b c rfl
    exact absurd (writeAddress_lt_32 c) (by omega)
  rw [he.cell_eq hs hne, hz a ha]

/-- The constants of LOAD_CONST are makeable (R112). -/
theorem makeable_constantValue (b : BitVec 22) : Makeable (constantValue b) := by
  left
  rw [constantValue_toNat]
  exact b.isLt

/-- The reversal of a makeable value is makeable: reversing twice gives the value back (R112). -/
theorem Makeable.bitreverse32 {v : Word} (h : Makeable v) : Makeable (bitreverse32 v) := by
  rcases h with h | h
  · right
    rwa [bitreverse32_involutive v]
  · exact .inl h

/-- A register write of a makeable value keeps every value makeable. -/
theorem State.ValueInv.writeReg {s : State} (hs : s.ValueInv) {v : Word} (hv : Makeable v) (c : RegIx) :
    (s.writeReg c v).ValueInv where
  regs_makeable i := by
    rw [State.readReg_writeReg]
    split
    · exact hv
    · exact hs.regs_makeable i
  cells_makeable := hs.cells_makeable

/-- A cell write of a makeable value keeps every value makeable. -/
theorem State.ValueInv.writeCell {s : State} (hs : s.ValueInv) (hwf : Memory.wf s.mem) {v : Word}
    (hv : Makeable v) (a : Nat) : (s.writeCell a v).ValueInv where
  regs_makeable := hs.regs_makeable
  cells_makeable b := by
    rw [State.cell_writeCell hwf]
    split
    · exact hv
    · exact hs.cells_makeable b

/-- The values do not depend on `pc`. -/
theorem State.ValueInv.advance {s : State} (hs : s.ValueInv) (n : Nat) : (s.advance n).ValueInv :=
  ⟨hs.regs_makeable, hs.cells_makeable⟩

/-- The values do not depend on the fault record. -/
theorem State.ValueInv.raise {s : State} (hs : s.ValueInv) (k : FaultKind) : (s.raise k).ValueInv :=
  ⟨hs.regs_makeable, hs.cells_makeable⟩

/-- Every instruction writes a makeable value: a constant, a value that stands in the state, or a reversal. -/
theorem Effect.valueInv {s t : State} {i : Instr} (h : Effect s i t) (hwf : Memory.wf s.mem)
    (hs : s.ValueInv) : t.ValueInv := by
  cases h with
  | loadConst b c => exact (hs.writeReg (makeable_constantValue b) c).advance _
  | readMem b c _ => exact (hs.writeReg (hs.cells_makeable _) c).advance _
  | outOfRange b c _ => exact hs.raise _
  | writeMem b c => exact (hs.writeCell hwf (hs.regs_makeable b) _).advance _
  | bitReverse b c => exact (hs.writeReg (hs.regs_makeable b).bitreverse32 c).advance _

/-- Settles O31: every effect writes a makeable value and a fault writes none. -/
theorem stepKeepsValuesMakeable : Obligations.StepKeepsValuesMakeable :=
  fun _ _ hwf hs h => step_preserves hs.raise (fun _ he => he.valueInv hwf hs) h

end Sys2Proof.Machine
end

section
/-! SUPPORT. Runs (spec/40_sequencer.md R92, R95, R96, R98): how a run that ends begins, and what its straight
line of instructions is. -/

namespace Sys2Proof.Machine

/-- A step stops where the status is not running (R92). -/
theorem step_stops {s : State} (h : s.status ≠ .running) : ∃ f, step s = .fault f := by
  rcases step_by_status s with ⟨r, _, hs⟩ | ⟨_, _, hs⟩ | ⟨hf, hpc, _⟩
  · exact ⟨_, hs⟩
  · exact ⟨_, hs⟩
  · exact absurd (s.status_running_iff.mpr ⟨hf, hpc⟩) h

/-- A run from a state that is not running is over at once. -/
theorem endsAfter_of_stopped {s t : State} {k : Nat} (hs : s.status ≠ .running) :
    EndsAfter s k t ↔ k = 0 ∧ t = s := by
  constructor
  · rintro ⟨hrun, _⟩
    cases k with
    | zero => exact ⟨rfl, (Host.Outcome.next.inj hrun).symm⟩
    | succ k =>
      obtain ⟨f, hf⟩ := step_stops hs
      simp [runSteps_succ_fault hf] at hrun
  · rintro ⟨rfl, rfl⟩
    exact ⟨rfl, hs⟩

/-- A run from a running state is a step and the run after it. -/
theorem endsAfter_of_step {s u t : State} {k : Nat} (h : step s = .next u) :
    EndsAfter s (k + 1) t ↔ EndsAfter u k t := by
  rw [EndsAfter, EndsAfter, runSteps_succ_next h]

/-- A run that ends is over at once in its first state, or ends after a first step. -/
theorem EndsAfter.cases {s t : State} {k : Nat} (h : EndsAfter s k t) :
    (s.status ≠ .running ∧ k = 0 ∧ t = s) ∨ ∃ u j, k = j + 1 ∧ step s = .next u ∧ EndsAfter u j t := by
  by_cases hs : s.status = .running
  · obtain ⟨u, hu⟩ := step_next_iff.mpr (s.status_running_iff.mp hs)
    cases k with
    | zero =>
      obtain ⟨hrun, ht⟩ := h
      obtain rfl := Host.Outcome.next.inj hrun
      exact absurd hs ht
    | succ j => exact .inr ⟨u, j, rfl, hu, (endsAfter_of_step hu).mp h⟩
  · exact .inl ⟨hs, (endsAfter_of_stopped hs).mp h⟩

/-- A state with a recorded fault is not running. -/
theorem State.raise_not_running (s : State) (k : FaultKind) : (s.raise k).status ≠ .running := by
  simp [State.status_running_iff]

/-- Every run ends: a fault is the last step, and a completed instruction leaves at least two bytes less
(R98). -/
theorem endsAfter_within (n : Nat) :
    ∀ s : State, s.code.length - s.pc = n → ∃ k t, EndsAfter s k t ∧ k ≤ n / 2 + 1 ∧
      (s.fault = none → t.fault = none → k ≤ n / 2) := by
  induction n using Nat.strong_induction_on with
  | _ n ih =>
  intro s hn
  by_cases hs : s.status = .running
  · obtain ⟨u, hu⟩ := step_next_iff.mpr (s.status_running_iff.mp hs)
    rcases step_faults_or_completes hu with ⟨kind, rfl⟩ | ⟨i, hd, hi⟩
    · have hend := (endsAfter_of_stopped (s.raise_not_running kind)).mpr ⟨rfl, rfl⟩
      exact ⟨1, _, (endsAfter_of_step hu).mpr hend, by omega, fun _ ht => by simp at ht⟩
    · have hsize := i.two_le_size
      have hinside := (decodeAt_size hd).2
      have hleft : u.code.length - u.pc = n - i.size := by
        rw [hi.code_eq, hi.pc_eq]
        omega
      obtain ⟨k, t, hend, hk, hk'⟩ := ih (n - i.size) (by omega) u hleft
      refine ⟨k + 1, t, (endsAfter_of_step hu).mpr hend, by omega, fun hf ht => ?_⟩
      have := hk' (hi.fault_eq.trans hf) ht
      omega
  · exact ⟨0, s, (endsAfter_of_stopped hs).mpr ⟨rfl, rfl⟩, by omega, fun _ _ => by omega⟩

/-- Settles O32: by strong induction on the number of bytes left. -/
theorem everyRunEnds : Obligations.EveryRunEnds :=
  fun s => endsAfter_within _ s rfl

/-- An instruction that stands at `pc` and completes goes in front of the straight line after it. -/
theorem StraightLine.cons {s t u : State} {i : Instr} {is : List Instr} (hf : s.fault = none)
    (hd : decodeAt s.code s.pc = .instr i i.size) (hi : Completes i s t) (h : StraightLine t is u) :
    StraightLine s (i :: is) u :=
  ⟨hd, t, hi.next, hi.fault_eq.trans hf, hi.pc_eq, h⟩

/-- Settles O33: by induction on the number of steps. A run that is over has executed nothing; a first step
that faults is the only one; a completed instruction goes in front of the straight line of the rest. -/
theorem runIsAStraightLineScan : Obligations.RunIsAStraightLineScan := by
  intro s t k
  induction k generalizing s with
  | zero =>
    rintro hf hpc ⟨hrun, ht⟩
    obtain rfl := Host.Outcome.next.inj hrun
    have hend : s.code.length ≤ s.pc := Nat.le_of_not_lt fun h => ht (s.status_running_iff.mpr ⟨hf, h⟩)
    exact ⟨[], s, rfl, rfl, hf, .inl ⟨rfl, hpc.antisymm hend⟩⟩
  | succ k ih =>
    intro hf hpc h
    rcases h.cases with ⟨_, hk, _⟩ | ⟨u, j, hj, hu, hend⟩
    · omega
    · obtain rfl : k = j := Nat.succ.inj hj
      rcases step_faults_or_completes hu with ⟨kind, rfl⟩ | ⟨i, hd, hi⟩
      · obtain ⟨_, rfl⟩ := (endsAfter_of_stopped (s.raise_not_running kind)).mp hend
        have hlt := (step_next_iff.mp ⟨_, hu⟩).2
        exact ⟨[], s, rfl, rfl, hf, .inr ⟨⟨kind, s.pc⟩, rfl, rfl, hlt⟩⟩
      · obtain ⟨is, v, hline, hsum, hv, hcase⟩ := ih u (hi.fault_eq.trans hf) (hi.pc_le hd) hend
        refine ⟨i :: is, v, hline.cons hf hd hi, ?_, hv, hcase⟩
        rw [hsum, hi.pc_eq, List.map_cons, List.sum_cons, Nat.add_assoc]

/-- The instructions of a straight line to the end of the buffer are what the buffer holds, and none of them
can fault. -/
theorem StraightLine.parses {is : List Instr} {s t : State} (h : StraightLine s is t)
    (ht : t.pc = t.code.length) : Parses s.code s.pc is ∧ ∀ i ∈ is, AddressExists i := by
  induction is generalizing s with
  | nil =>
    obtain rfl : t = s := h
    exact ⟨ht, by simp⟩
  | cons i is ih =>
    obtain ⟨hd, u, hu, huf, _, hrest⟩ := h
    have hi : Completes i s u := (exec_faults_or_completes hu).resolve_left (by rintro rfl; cases huf)
    obtain ⟨hparse, haddr⟩ := ih hrest
    rw [hi.code_eq, hi.pc_eq] at hparse
    exact ⟨⟨hd, hparse⟩, List.forall_mem_cons.mpr ⟨hi.address_exists, haddr⟩⟩

/-- Where the buffer holds whole instructions to its end and none of them can fault, the run halts. -/
theorem completed_of_parses {is : List Instr} {s : State} (hf : s.fault = none)
    (hp : Parses s.code s.pc is) (ha : ∀ i ∈ is, AddressExists i) : ∃ k t, EndsAfter s k t ∧ t.Completed := by
  induction is generalizing s with
  | nil =>
    have hpc : s.pc = s.code.length := hp
    have hhalted : s.status = .halted := s.status_halted_iff.mpr ⟨hf, hpc.ge⟩
    exact ⟨0, s, ⟨rfl, by simp [hhalted]⟩, hhalted⟩
  | cons i is ih =>
    obtain ⟨hd, hrest⟩ := hp
    obtain ⟨hai, hais⟩ := List.forall_mem_cons.mp ha
    obtain ⟨u, hi⟩ := exec_completes hai s
    rw [← hi.code_eq, ← hi.pc_eq] at hrest
    obtain ⟨k, t, hend, ht⟩ := ih (hi.fault_eq.trans hf) hrest hais
    exact ⟨k + 1, t, (endsAfter_of_step ((step_of_decodeAt hf hd).trans hi.next)).mpr hend, ht⟩

/-- Settles O34: a run that halts is a straight line to the end of the buffer; conversely the instructions of
a sound buffer complete one after the other. -/
theorem runCompletesExactlyWhenTheCodeIsSound : Obligations.RunCompletesExactlyWhenTheCodeIsSound := by
  intro s hf hpc
  constructor
  · rintro ⟨k, t, hend, ht⟩
    have htf : t.fault = none := (t.status_halted_iff.mp ht).1
    obtain ⟨is, u, hline, _, _, ⟨rfl, htpc⟩ | ⟨r, rfl, _⟩⟩ := runIsAStraightLineScan s t k hf hpc hend
    · exact ⟨is, hline.parses htpc⟩
    · cases htf
  · rintro ⟨is, hparse, haddr⟩
    exact completed_of_parses hf hparse haddr

end Sys2Proof.Machine
end

section
/-! SUPPORT. Two states with the same control (spec/40_sequencer.md R93, R96): what a step does with the code
buffer, `pc` and the fault record depends on these three alone. -/

namespace Sys2Proof.Machine

/-- The states agree on code buffer, `pc` and fault record; their registers and memories are any. -/
structure SameControl (s s' : State) : Prop where
  code_eq : s'.code = s.code
  pc_eq : s'.pc = s.pc
  fault_eq : s'.fault = s.fault

/-- A fault keeps two states alike: it records its kind at the one `pc`. -/
theorem SameControl.raise {s s' : State} (h : SameControl s s') (k : FaultKind) :
    SameControl (s.raise k) (s'.raise k) :=
  ⟨h.code_eq, h.pc_eq, by rw [State.raise_fault, State.raise_fault, h.pc_eq]⟩

/-- An instruction completes in both states or faults in both, since that depends on its fields alone. -/
theorem SameControl.exec {s s' : State} (h : SameControl s s') (i : Instr) :
    ∃ t t', exec i s = .next t ∧ exec i s' = .next t' ∧ SameControl t t' := by
  by_cases hi : AddressExists i
  · obtain ⟨t, ht⟩ := exec_completes hi s
    obtain ⟨t', ht'⟩ := exec_completes hi s'
    exact ⟨t, t', ht.next, ht'.next, by rw [ht.code_eq, ht'.code_eq, h.code_eq],
      by rw [ht.pc_eq, ht'.pc_eq, h.pc_eq], by rw [ht.fault_eq, ht'.fault_eq, h.fault_eq]⟩
  · exact ⟨_, _, exec_of_not_addressExists hi s, exec_of_not_addressExists hi s', h.raise _⟩

/-- One step of two states with the same control: both go on with the same control, or both stop alike. -/
theorem SameControl.step {s s' : State} (h : SameControl s s') :
    (∃ t t', step s = .next t ∧ step s' = .next t' ∧ SameControl t t') ∨
      ∃ f, step s = .fault f ∧ step s' = .fault f := by
  cases hf : s.fault with
  | some r => exact .inr ⟨_, step_of_faulted hf, step_of_faulted (h.fault_eq.trans hf)⟩
  | none =>
    have hf' : s'.fault = none := h.fault_eq.trans hf
    have hdecode : decodeAt s'.code s'.pc = decodeAt s.code s.pc := by rw [h.code_eq, h.pc_eq]
    cases hd : decodeAt s.code s.pc with
    | instr i n =>
      rw [step_of_decodeAt hf hd, step_of_decodeAt hf' (hdecode.trans hd)]
      exact .inl (h.exec i)
    | fault k =>
      exact .inl ⟨_, _, step_of_decode_fault hf hd, step_of_decode_fault hf' (hdecode.trans hd), h.raise k⟩
    | endOfBuffer =>
      exact .inr ⟨_, step_of_exhausted hf (decodeAt_eq_endOfBuffer.mp hd),
        step_of_exhausted hf' (decodeAt_eq_endOfBuffer.mp (hdecode.trans hd))⟩

/-- The same over any number of steps. -/
theorem SameControl.runSteps {s s' : State} (h : SameControl s s') (k : Nat) :
    (∃ t t', runSteps k s = .next t ∧ runSteps k s' = .next t' ∧ SameControl t t') ∨
      ∃ f, runSteps k s = .fault f ∧ runSteps k s' = .fault f := by
  induction k generalizing s s' with
  | zero => exact .inl ⟨s, s', rfl, rfl, h⟩
  | succ k ih =>
    rcases h.step with ⟨t, t', ht, ht', hcontrol⟩ | ⟨f, hf, hf'⟩
    · rw [runSteps_succ_next ht, runSteps_succ_next ht']
      exact ih hcontrol
    · exact .inr ⟨f, runSteps_succ_fault hf k, runSteps_succ_fault hf' k⟩

/-- Settles O35: `SameControl` is kept by every step and decides how a run stops. -/
theorem controlNeverDependsOnData : Obligations.ControlNeverDependsOnData := by
  intro s s' hcode hpc hfault k
  rcases (SameControl.mk hcode hpc hfault).runSteps k with ⟨t, t', ht, ht', hcontrol⟩ | hstop
  · exact .inl ⟨t, t', ht, ht', hcontrol.code_eq, hcontrol.pc_eq, hcontrol.fault_eq⟩
  · exact .inr hstop

end Sys2Proof.Machine
end

section
/-! SUPPORT. Faults (spec/60_exceptions.md R141 to R148): when each decode fault is raised, in which order the
checks come, and what a faulting step leaves. -/

namespace Sys2Proof

/-- The nibbles of the four opcodes (R61). -/
theorem mem_opcodes_iff {n : Nat} : n ∈ [12, 10, 7, 1] ↔ ∃ m : Mnemonic, n = m.opcode := by
  constructor
  · intro h
    have hn : mnemonicOf n ≠ none := fun hnone => by
      obtain ⟨h12, h10, h7, h1⟩ := mnemonicOf_eq_none.mp hnone
      simp [h12, h10, h7, h1] at h
    obtain ⟨m, hm⟩ := Option.ne_none_iff_exists'.mp hn
    exact ⟨m, mnemonicOf_eq_some.mp hm⟩
  · rintro ⟨m, rfl⟩
    cases m <;> decide

/-- At an offset with a byte the decoder answers TruncatedInstruction exactly where the low nibble is an opcode
and fewer bytes are left than its length (R71). -/
theorem decodeAt_eq_truncatedInstruction {code : List Byte} {k : Nat} {b0 : Byte} (hb : code[k]? = some b0) :
    decodeAt code k = .fault .truncatedInstruction ↔
      b0.toNat % 16 ∈ [12, 10, 7, 1] ∧
        code.length - k < if b0.toNat % 16 ∈ [12, 10] then 4 else 2 := by
  by_cases hop : b0.toNat % 16 ∈ [12, 10, 7, 1]
  · obtain ⟨m, hm⟩ := mem_opcodes_iff.mp hop
    have hsize : m.size = if b0.toNat % 16 ∈ [12, 10] then 4 else 2 := by
      simp [m.size_eq_of_opcode, hm]
    rw [← hsize]
    by_cases hlen : code.length - k < m.size
    · simp [decodeAt, hb, mnemonicOf_eq_some.mpr (show lowNibble b0 = m.opcode from hm), hlen, hop]
    · simp [decodeAt, hb, mnemonicOf_eq_some.mpr (show lowNibble b0 = m.opcode from hm), hlen]
  · have hunknown := (opcodeAloneDecidesTheLength code k b0 hb).2.mpr hop
    simp [hunknown, hop]

/-- An opcode with all bytes of its length left decodes to an instruction (R72, R73). -/
theorem exists_instr_of_enough_bytes {code : List Byte} {k : Nat} {b0 : Byte} (hb : code[k]? = some b0)
    (hop : b0.toNat % 16 ∈ [12, 10, 7, 1])
    (hlen : ¬ code.length - k < if b0.toNat % 16 ∈ [12, 10] then 4 else 2) :
    ∃ i, decodeAt code k = .instr i i.size := by
  rcases decodeAt_cases code k with ⟨hend, _⟩ | ⟨_, ⟨_, e⟩ | ⟨m, _, ⟨_, e⟩ | ⟨_, e⟩⟩⟩
  · rw [List.getElem?_eq_none hend] at hb
    cases hb
  · exact absurd hop ((opcodeAloneDecidesTheLength code k b0 hb).2.mp e)
  · exact absurd ((decodeAt_eq_truncatedInstruction hb).mp e).2 hlen
  · exact ⟨_, by rw [e, instrOfWord_size]⟩

/-- A decoded instruction is well formed: its operands have the widths of their fields (R72). -/
theorem Instr.wellFormed_eq_true (i : Instr) : i.wellFormed = true := by
  have hrecord : i.record = i.record.instr.record := by
    cases i <;> simp [Instr.record, Record.instr]
  rw [Instr.wellFormed, hrecord, Record.instr_record]
  simp [Record.wellFormed, Record.fitsB, Record.fitsC, Nat.mod_lt]

end Sys2Proof

namespace Sys2Proof.Machine

/-- Settles O8: by the two answers of the decoder in a running state. -/
theorem stepRunsTheDecodedInstruction : Obligations.StepRunsTheDecodedInstruction := by
  intro s hf hpc
  rcases step_of_running hf hpc with ⟨i, hd, hs⟩ | ⟨k, hd, hs⟩
  · exact .inl ⟨i, i.size, hd, rfl, i.wellFormed_eq_true, hs⟩
  · exact .inr ⟨k, hd, hs⟩

/-- Settles O12: none of the twelve nibbles is an opcode, so the decoder answers the fault. -/
theorem illegalNibbleIsUnknownOpcode : Obligations.IllegalNibbleIsUnknownOpcode := by
  intro s b0 hf hb hop
  refine step_of_decode_fault hf ((opcodeAloneDecidesTheLength s.code s.pc b0 hb).2.mpr ?_)
  have hillegal : ∀ n ∈ [0, 2, 3, 4, 5, 6, 8, 9, 11, 13, 14, 15], n ∉ [12, 10, 7, 1] := by decide
  exact hillegal _ hop

/-- Settles O13: each nibble is an opcode whose length exceeds what is left, so the decoder answers the
fault. -/
theorem cutShortInstructionIsTruncated : Obligations.CutShortInstructionIsTruncated := by
  intro s b0 hf hb hcut
  refine step_of_decode_fault hf ((decodeAt_eq_truncatedInstruction hb).mpr ?_)
  rcases hcut with ⟨hop, hlen⟩ | ⟨hop, hlen⟩
  · rw [if_pos hop]
    exact ⟨List.mem_append_left [7, 1] hop, hlen⟩
  · refine ⟨List.mem_append_right [12, 10] hop, ?_⟩
    split
    · omega
    · exact hlen

/-- Settles O15: of the two ways a step answers a next state only the fault records one, and it is the record
of that fault. -/
theorem faultingStepChangesOnlyTheFaultRecord : Obligations.FaultingStepChangesOnlyTheFaultRecord := by
  intro s t h r hr
  have hf := (step_next_iff.mp ⟨t, h⟩).1
  rcases step_faults_or_completes h with ⟨k, rfl⟩ | ⟨i, _, hi⟩
  · obtain rfl := Option.some.inj hr
    exact ⟨hf, rfl, rfl⟩
  · rw [hi.fault_eq, hf] at hr
    cases hr

/-- A decode fault is the kind of the record in the state the step answers. -/
theorem step_fault_kind_of_decode {s t : State} {k : FaultKind} (hf : s.fault = none)
    (hd : decodeAt s.code s.pc = .fault k) (ht : step s = .next t) : t.fault.map FaultRecord.kind = some k := by
  obtain rfl := Host.Outcome.next.inj (ht.symm.trans (step_of_decode_fault hf hd))
  rfl

/-- At execution only a READ_MEM of an address that does not exist faults, with AddressOutOfRange (R143,
R144). -/
theorem exec_fault_kind {i : Instr} {s t : State} (hf : s.fault = none) (ht : exec i s = .next t) :
    ((∃ b c, i = .readMem b c ∧ Config.memCells ≤ readAddress b) ∧
        t.fault.map FaultRecord.kind = some .addressOutOfRange) ∨
      ((¬ ∃ b c, i = .readMem b c ∧ Config.memCells ≤ readAddress b) ∧ t.fault = none) := by
  rw [← not_addressExists_iff]
  by_cases hi : AddressExists i
  · obtain ⟨u, hu⟩ := exec_completes hi s
    obtain rfl := Host.Outcome.next.inj (ht.symm.trans hu.next)
    exact .inr ⟨not_not.mpr hi, hu.fault_eq.trans hf⟩
  · obtain rfl := Host.Outcome.next.inj (ht.symm.trans (exec_of_not_addressExists hi s))
    exact .inl ⟨hi, rfl⟩

/-- Settles O14: the decoder makes the first two checks in that order, and execution the third. -/
theorem faultChecksComeInOrder : Obligations.FaultChecksComeInOrder := by
  intro s b0 hf hb
  obtain ⟨hpc, _⟩ := List.getElem?_eq_some_iff.mp hb
  obtain ⟨t, ht⟩ := step_next_iff.mpr ⟨hf, hpc⟩
  refine ⟨t, ht, fun hne u hu => hne (step_next_iff.mp ⟨u, hu⟩).1, ?_⟩
  by_cases hop : b0.toNat % 16 ∈ [12, 10, 7, 1]
  · rw [if_neg (not_not.mpr hop)]
    by_cases hlen : s.code.length - s.pc < if b0.toNat % 16 ∈ [12, 10] then 4 else 2
    · rw [if_pos hlen]
      exact step_fault_kind_of_decode hf ((decodeAt_eq_truncatedInstruction hb).mpr ⟨hop, hlen⟩) ht
    · rw [if_neg hlen]
      obtain ⟨i, hd⟩ := exists_instr_of_enough_bytes hb hop hlen
      exact ⟨i, hd, exec_fault_kind hf ((step_of_decodeAt hf hd).symm.trans ht)⟩
  · rw [if_pos hop]
    exact step_fault_kind_of_decode hf ((opcodeAloneDecidesTheLength s.code s.pc b0 hb).2.mpr hop) ht

end Sys2Proof.Machine
end

section
/-! SUPPORT. What an instruction may write: one cell or one register (spec/20_memory.md section 1,
spec/10_state.md R23). -/

namespace Sys2Proof.Machine

/-- A register write changes no other register. -/
theorem State.eq_of_readReg_writeReg_ne {s : State} {c r : RegIx} {v : Word}
    (h : (s.writeReg c v).readReg r ≠ s.readReg r) : r = c := by
  by_contra hr
  exact h (State.readReg_writeReg_ne s c v hr)

/-- A cell changes by a WRITE_MEM to it only, which leaves the registers (R121). -/
theorem Effect.of_cell_ne {s t : State} {i : Instr} (h : Effect s i t) (hs : Memory.wf s.mem) {a : Nat}
    (ha : t.cell a ≠ s.cell a) : ∃ b c, i = .writeMem b c ∧ a = writeAddress c ∧ t.regs = s.regs := by
  by_contra hno
  refine ha (h.cell_eq hs fun b c hc hi => hno ⟨b, c, hi, hc.symm, ?_⟩)
  subst hi
  cases h
  rfl

/-- A register changes by one of the other three instructions with it as field C only, which leaves the
memory (R110, R120, R130). -/
theorem Effect.of_readReg_ne {s t : State} {i : Instr} (h : Effect s i t) {r : RegIx}
    (hr : t.readReg r ≠ s.readReg r) : t.mem = s.mem ∧
      ((∃ b, i = .loadConst b r) ∨ (∃ b, i = .readMem b r) ∨ ∃ b, i = .bitReverse b r) := by
  cases h with
  | loadConst b c =>
    obtain rfl := State.eq_of_readReg_writeReg_ne hr
    exact ⟨rfl, .inl ⟨b, rfl⟩⟩
  | readMem b c _ =>
    obtain rfl := State.eq_of_readReg_writeReg_ne hr
    exact ⟨rfl, .inr (.inl ⟨b, rfl⟩)⟩
  | bitReverse b c =>
    obtain rfl := State.eq_of_readReg_writeReg_ne hr
    exact ⟨rfl, .inr (.inr ⟨b, rfl⟩)⟩
  | outOfRange b c _ => exact absurd rfl hr
  | writeMem b c => exact absurd rfl hr

/-- Settles O11: a fault writes neither registers nor memory; of an executed instruction, what changed tells
which it was. -/
theorem stepWritesOneRegisterOrOneCell : Obligations.StepWritesOneRegisterOrOneCell := by
  intro s t h hwf
  refine ⟨step_code h, ?_⟩
  obtain ⟨_, ⟨k, _, rfl⟩ | ⟨i, n, hd, he⟩⟩ := step_cases h
  · exact ⟨fun a ha => absurd rfl ha, fun r hr => absurd rfl hr⟩
  · have heffect := exec_effect he
    have hd : decodeAt s.code s.pc = .instr i n := hd
    obtain ⟨rfl, _⟩ := decodeAt_size hd
    constructor
    · intro a ha
      obtain ⟨b, c, rfl, hc, hregs⟩ := heffect.of_cell_ne hwf ha
      exact ⟨b, c, hd, hc, hregs⟩
    · intro r hr
      obtain ⟨hmem, ⟨b, rfl⟩ | ⟨b, rfl⟩ | ⟨b, rfl⟩⟩ := heffect.of_readReg_ne hr
      · exact ⟨hmem, .inl ⟨b, hd⟩⟩
      · exact ⟨hmem, .inr (.inl ⟨b, hd⟩)⟩
      · exact ⟨hmem, .inr (.inr ⟨b, hd⟩)⟩

end Sys2Proof.Machine
end

section
/-! SUPPORT. The data memory over a list of instructions and as canonical data (spec/20_memory.md R52,
spec/10_state.md R34, R35). -/

namespace Sys2Proof.Machine

/-- An instruction in front of a list. -/
theorem execList_cons {i : Instr} {s t : State} (h : exec i s = .next t) (is : List Instr) :
    execList (i :: is) s = execList is t := by
  rw [execList, h]

/-- Instructions that do not write a cell, then a READ_MEM of it: all answer a next state, and the register
gets what the cell held before them. -/
theorem execList_then_readMem {is : List Instr} {s : State} (hwf : Memory.wf s.mem) {b : BitVec 17}
    (hb : readAddress b < Config.memCells) (his : ∀ r c, writeAddress c = readAddress b → Instr.writeMem r c ∉ is)
    (d : RegIx) :
    ∃ u, execList (is ++ [.readMem b d]) s = some u ∧ u.readReg d = s.cell (readAddress b) := by
  induction is generalizing s with
  | nil => exact ⟨_, execList_cons (exec_readMem_of_lt hb d s) [], State.readReg_writeReg_same s d _⟩
  | cons i is ih =>
    obtain ⟨t, ht, he⟩ := exec_next i s
    obtain ⟨u, hu, hread⟩ := ih (he.mem_wf hwf) fun r c hc hmem => his r c hc (List.mem_cons_of_mem i hmem)
    have hcell : t.cell (readAddress b) = s.cell (readAddress b) :=
      he.cell_eq hwf fun r c hc hi => his r c hc (hi ▸ List.mem_cons_self)
    exact ⟨u, (execList_cons ht _).trans hu, hread.trans hcell⟩

/-- Two WRITE_MEM addresses are the same only where their fields are (R122). -/
theorem writeAddress_injective : Function.Injective writeAddress :=
  fun _ _ h => BitVec.eq_of_toNat_eq h

/-- Settles O24: the instructions in between leave the cell, which the WRITE_MEM, or reset, has set. -/
theorem readMemSeesTheLatestWrite : Obligations.ReadMemSeesTheLatestWrite := by
  constructor
  · intro s r d c b is hwf hbc his
    have hwrite := exec_writeMem r c s
    obtain ⟨u, hu, hread⟩ := execList_then_readMem (is := is) ((exec_effect hwrite).mem_wf hwf)
      (hbc ▸ writeAddress_lt c)
      (fun r' c' hc' => writeAddress_injective (hc'.trans hbc) ▸ his r') d
    refine ⟨u, (execList_cons hwrite _).trans hu, ?_⟩
    rw [hread, hbc, State.advance_cell, State.cell_writeCell hwf, if_pos rfl]
  · intro code d b is hb his
    exact execList_then_readMem (s := boot code) State.reset_mem_wf hb (fun r c hc => his r c hc) d

/-- In a canonical memory a listed cell is the one read at its address. -/
theorem Memory.read_of_mem {m : Memory} (h : Memory.wf m) {a : Nat} {v : Word} (hm : (a, v) ∈ m) :
    Memory.read m a = v := by
  induction m with
  | nil => cases hm
  | cons p m ih =>
    obtain ⟨k, u⟩ := p
    obtain ⟨hrise, hlisted⟩ := h
    obtain ⟨habove, hrise⟩ := List.pairwise_cons.mp hrise
    rw [Memory.read]
    rcases List.mem_cons.mp hm with hp | hm
    · obtain ⟨rfl, rfl⟩ := Prod.mk.inj hp
      exact if_pos rfl
    · have hka : k < a := habove (a, v) hm
      rw [if_neg hka.ne]
      exact ih ⟨hrise, fun q hq => hlisted q (List.mem_cons_of_mem _ hq)⟩ hm

/-- A cell that does not read as reset is listed. -/
theorem Memory.mem_of_read {m : Memory} {a : Nat} (h : Memory.read m a ≠ Config.resetCell) :
    (a, Memory.read m a) ∈ m := by
  induction m with
  | nil => exact absurd rfl h
  | cons p m ih =>
    obtain ⟨k, u⟩ := p
    rw [Memory.read] at h ⊢
    split
    · next hk => simp [hk]
    · next hk =>
      rw [if_neg hk] at h
      exact List.mem_cons_of_mem _ (ih h)

/-- What a canonical memory lists, in terms of what it reads. -/
theorem Memory.mem_iff_read {m : Memory} (h : Memory.wf m) {a : Nat} {v : Word} :
    (a, v) ∈ m ↔ Memory.read m a = v ∧ v ≠ Config.resetCell := by
  constructor
  · intro hm
    exact ⟨Memory.read_of_mem h hm, (h.2 _ hm).2⟩
  · rintro ⟨rfl, hv⟩
    exact Memory.mem_of_read hv

/-- Settles O25: memories that read alike list the same cells, and both list them in rising order. -/
theorem canonicalMemoriesThatReadAlikeAreEqual : Obligations.CanonicalMemoriesThatReadAlikeAreEqual := by
  intro m m' hm hm' hread
  have hmem : ∀ p, p ∈ m ↔ p ∈ m' := fun ⟨a, v⟩ => by
    rw [Memory.mem_iff_read hm, Memory.mem_iff_read hm', hread]
  have nodup {l : Memory} (hl : l.Pairwise fun p q => p.1 < q.1) : l.Nodup :=
    hl.imp fun {p q} hpq he => absurd (he ▸ hpq) (lt_irrefl _)
  have hperm : m.Perm m' := (List.perm_ext_iff_of_nodup (nodup hm.1) (nodup hm'.1)).mpr hmem
  exact hperm.eq_of_pairwise (fun p q _ _ hpq hqp => absurd hqp hpq.asymm) hm.1 hm'.1

end Sys2Proof.Machine
end

section
/-! SUPPORT. Instruction words wherever they stand (spec/30_encoding.md R67, R69, R81): the fields of the two
4-byte instructions, the unused bits, and a decodable byte string in the middle of a buffer. -/

namespace Sys2Proof

/-- Field B of a word of any width, as a bit field (R67). -/
theorem ofNat_operandB {n : Nat} (m : Mnemonic) (w : BitVec n) :
    BitVec.ofNat m.widthB (operandB m w.toNat) = w.extractLsb' 4 m.widthB := by
  apply BitVec.eq_of_toNat_eq
  simp [operandB_eq, Nat.shiftRight_eq_div_pow]

/-- Field C of a word of any width, as a bit field (R67). -/
theorem ofNat_operandC {n : Nat} (m : Mnemonic) (w : BitVec n) :
    BitVec.ofNat m.widthC (operandC m w.toNat) = w.extractLsb' (4 + m.widthB) m.widthC := by
  apply BitVec.eq_of_toNat_eq
  simp [operandC_eq, Nat.shiftRight_eq_div_pow, Nat.pow_add, Nat.div_div_eq_div_mul]

/-- The fields of a LOAD_CONST word: `B = w[25:4]`, `C = w[30:26]` (R63, R67). -/
theorem instrOfWord_loadConst (w : BitVec 32) :
    instrOfWord .loadConst w.toNat = .loadConst (w.extractLsb' 4 22) (w.extractLsb' 26 5).toFin :=
  congrArg₂ (fun (b : BitVec 22) (c : BitVec 5) => Instr.loadConst b c.toFin)
    (ofNat_operandB .loadConst w) (ofNat_operandC .loadConst w)

/-- The fields of a READ_MEM word: `B = w[20:4]`, `C = w[25:21]` (R64, R67). -/
theorem instrOfWord_readMem (w : BitVec 32) :
    instrOfWord .readMem w.toNat = .readMem (w.extractLsb' 4 17) (w.extractLsb' 21 5).toFin :=
  congrArg₂ (fun (b : BitVec 17) (c : BitVec 5) => Instr.readMem b c.toFin)
    (ofNat_operandB .readMem w) (ofNat_operandC .readMem w)

/-- The instruction of a word depends on its used bits alone (R69). -/
theorem instrOfWord_mod_usedBits (m : Mnemonic) (w : Nat) :
    instrOfWord m (w % 2 ^ m.usedBits) = instrOfWord m w := by
  have hfields : w % 2 ^ m.usedBits / 2 ^ 4 = w / 2 ^ 4 % (2 ^ m.widthB * 2 ^ m.widthC) := by
    rw [Mnemonic.usedBits, Nat.pow_add, Nat.pow_add, Nat.mul_assoc, Nat.mod_mul_right_div_self]
  have hB : operandB m (w % 2 ^ m.usedBits) = operandB m w := by
    rw [operandB_eq, operandB_eq, hfields, Nat.mod_mul_right_mod]
  have hC : operandC m (w % 2 ^ m.usedBits) = operandC m w := by
    rw [operandC_eq, operandC_eq, hfields, Nat.mod_mul_right_div_self, Nat.mod_mod]
  rw [instrOfWord, instrOfWord, hB, hC]

/-- Bits of a word from its used bits on do not change its instruction. -/
theorem instrOfWord_mod_two_pow {m : Mnemonic} {n : Nat} (hn : m.usedBits ≤ n) (w : Nat) :
    instrOfWord m (w % 2 ^ n) = instrOfWord m w := by
  rw [← instrOfWord_mod_usedBits, Nat.mod_mod_of_dvd _ (Nat.pow_dvd_pow 2 hn), instrOfWord_mod_usedBits]

/-- Settles O20: the bits cut off, by the instruction's bytes or above its fields, are none of its fields. -/
theorem unusedBitsAreIgnored : Obligations.UnusedBitsAreIgnored := by
  intro pre post m w hop
  refine ⟨?_, encodeWord_instrOfWord_record hop⟩
  rw [decodeAt_append hop, instrOfWord_mod_two_pow m.usedBits_le, ← instrOfWord_mod_usedBits, Mnemonic.usedBits]

/-- A byte string that begins with an instruction does so wherever it stands in a buffer (R28, R73). -/
theorem decodeAt_append_of_decodeAt {bs : List Byte} {i : Instr} {n : Nat} (h : decodeAt bs 0 = .instr i n)
    (pre post : List Byte) : decodeAt (pre ++ bs ++ post) pre.length = .instr i n := by
  obtain ⟨b0, m, hb, hm, hsize, rfl, rfl⟩ := decodeAt_eq_instr.mp h
  have hlen : m.size ≤ bs.length := hsize
  obtain ⟨hpos, _⟩ := List.getElem?_eq_some_iff.mp hb
  have hfirst : (pre ++ bs ++ post)[pre.length]? = some b0 := by
    rw [List.append_assoc, List.getElem?_append_right le_rfl, Nat.sub_self, List.getElem?_append_left hpos, hb]
  have hread : codeRead (pre ++ bs ++ post) pre.length m.size = codeRead bs 0 m.size := by
    rw [codeRead, codeRead, List.append_assoc, List.drop_left, List.drop_zero, List.take_append_of_le_length hlen]
  have hleft : m.size ≤ (pre ++ bs ++ post).length - pre.length := by
    rw [List.append_assoc, List.length_append, List.length_append]
    omega
  exact decodeAt_eq_instr.mpr ⟨b0, m, hfirst, hm, hleft, by rw [hread], rfl⟩

end Sys2Proof

namespace Sys2Proof.Machine

/-- Bytes laid over a buffer at an offset decode there as they do alone. -/
theorem decodeAt_overlay {bs : List Byte} {i : Instr} {n : Nat} (h : decodeAt bs 0 = .instr i n)
    (code : List Byte) (k : Nat) : decodeAt (overlay code k bs) k = .instr i n := by
  have hk : (code.take k ++ List.replicate (k - code.length) 0).length = k := by
    rw [List.length_append, List.length_take, List.length_replicate]
    omega
  have := decodeAt_append_of_decodeAt h (code.take k ++ List.replicate (k - code.length) 0)
    (code.drop (k + bs.length))
  rwa [hk] at this

/-- A table word stands for an instruction where its bytes decode to it. -/
theorem decodeTableWord_eq_some {nbits w : Nat} {i : Instr} (h : decodeTableWord nbits w = some i) :
    ∃ n, decodeAt (tableBytes nbits w) 0 = .instr i n := by
  unfold decodeTableWord at h
  split at h
  · next j n hd =>
    obtain rfl := Option.some.inj h
    exact ⟨n, hd⟩
  · cases h
  · cases h

/-- Settles O36: the word's bytes decode at `pc` as they do alone, and the placed state is running. -/
theorem placedTableWordRunsNext : Obligations.PlacedTableWordRunsNext := by
  intro s nbits w i h
  obtain ⟨n, hd⟩ := decodeTableWord_eq_some h
  exact ⟨step_of_decodeAt rfl (decodeAt_overlay hd s.code s.pc), rfl, rfl, rfl⟩

/-- Settles O3: the effect is one register written and `pc` advanced, so the laws of those two updates give
result and frame; the word at `pc` decodes to LOAD_CONST of its two fields, whatever its unused bit. -/
theorem loadConstWritesTheConstant : Obligations.LoadConstWritesTheConstant := by
  refine ⟨fun b c s => ⟨_, exec_loadConst b c s, ?result, fun r hr => ?frame, fun _ => rfl, rfl, rfl, rfl⟩,
    fun w pre post s hop _ hf hcode hpc => ?word⟩
  case result => rw [State.advance_readReg, State.readReg_writeReg_same, constantValue_toNat]
  case frame => rw [State.advance_readReg, State.readReg_writeReg_ne _ _ _ hr]
  case word =>
    rw [← instrOfWord_loadConst]
    exact step_of_word_at_pc rfl (toNat_mod_16_of_extractLsb' hop) hf hcode hpc

/-- Settles O4: the address decides between the register write and the fault; the word at `pc` decodes to
READ_MEM of its two fields, whatever its unused bits. -/
theorem readMemLoadsTheCellOrFaults : Obligations.ReadMemLoadsTheCellOrFaults := by
  refine ⟨fun b c s => ⟨rfl, fun hlt => ?completes, fun hge => exec_readMem_of_ge hge c s⟩,
    fun w pre post s hop _ hf hcode hpc => ?word⟩
  case completes =>
    refine ⟨_, exec_readMem_of_lt hlt c s, State.readReg_writeReg_same s c _, fun r hr => ?_, fun _ => rfl,
      rfl, rfl, rfl⟩
    rw [State.advance_readReg, State.readReg_writeReg_ne _ _ _ hr]
  case word =>
    rw [← instrOfWord_readMem]
    exact step_of_word_at_pc rfl (toNat_mod_16_of_extractLsb' hop) hf hcode hpc

/-- Settles O16: each buffer is evaluated; the words are the spec's (95_test_vectors.md section 2.1). -/
theorem writtenOutWordsDecode : Obligations.WrittenOutWordsDecode := by
  refine ⟨?_, ?_, ?_, ?_⟩
  all_goals decide

end Sys2Proof.Machine
end

section
/-! SUPPORT. The encoder's bytes and the lines of assembly text (spec/30_encoding.md R75, R76, R78, R79). -/

namespace Sys2Proof

/-- The encoder takes a record's operands modulo the widths of their fields (R76). -/
theorem encodeWord_congr {m : Mnemonic} {b b' c c' : Nat} (hb : b % 2 ^ m.widthB = b' % 2 ^ m.widthB)
    (hc : c % 2 ^ m.widthC = c' % 2 ^ m.widthC) : encodeWord ⟨m, b, c⟩ = encodeWord ⟨m, b', c'⟩ := by
  rw [encodeWord_eq, encodeWord_eq, hb, hc]

/-- Settles O22: the operands and their reductions are congruent. -/
theorem encodeTruncatesSilently : Obligations.EncodeTruncatesSilently := by
  intro m b c
  rw [Record.encode, Record.encode, encodeWord_congr (Nat.mod_mod b _).symm (Nat.mod_mod c _).symm]

end Sys2Proof

namespace Sys2Proof.Machine

/-- A line whose first token is no mnemonic fails, whatever follows (R78). -/
theorem assembleTokens_of_unknown {t : List Char} (h : mnemonicOfText t = none) (line : Nat)
    (ops : List (List Char)) : assembleTokens line (t :: ops) = .error (.unknownMnemonic line) := by
  simp only [assembleTokens, h]

/-! The spellings as lists of characters, which can be compared by computation. -/

theorem mnemonicText_loadConst : mnemonicText .loadConst = ['L', 'O', 'A', 'D', '_', 'C', 'O', 'N', 'S', 'T'] :=
  String.toList_ofList

theorem mnemonicText_readMem : mnemonicText .readMem = ['R', 'E', 'A', 'D', '_', 'M', 'E', 'M'] :=
  String.toList_ofList

theorem mnemonicText_writeMem : mnemonicText .writeMem = ['W', 'R', 'I', 'T', 'E', '_', 'M', 'E', 'M'] :=
  String.toList_ofList

theorem mnemonicText_bitReverse :
    mnemonicText .bitReverse = ['B', 'I', 'T', 'R', 'E', 'V', 'E', 'R', 'S', 'E'] :=
  String.toList_ofList

/-- A mnemonic is found again by its spelling: no two are spelled alike (R78). -/
@[simp] theorem mnemonicOfText_mnemonicText (m : Mnemonic) : mnemonicOfText (mnemonicText m) = some m := by
  cases m <;>
    simp [mnemonicOfText, mnemonicText_loadConst, mnemonicText_readMem, mnemonicText_writeMem,
      mnemonicText_bitReverse]

/-- Settles O21: byte `i` of a written word, applied to the word with its fields stacked. -/
theorem encodeStacksMaskedFields : Obligations.EncodeStacksMaskedFields := by
  refine ⟨fun r => ⟨bytesLE_length _ _, fun i hi => ?_⟩, fun line t ops h => assembleTokens_of_unknown h line ops⟩
  have hword : encodeWord r = r.m.opcode + 2 ^ 4 * (r.b % 2 ^ r.m.widthB) +
      2 ^ (4 + r.m.widthB) * (r.c % 2 ^ r.m.widthC) := by
    rw [encodeWord_eq]
    ring
  rw [Record.encode, bytesLE_getD_toNat hi, hword]

/-- Settles O23: the mnemonic is found by its spelling and the two tokens are its operands in order. -/
theorem assemblyLineIsMnemonicThenBThenC : Obligations.AssemblyLineIsMnemonicThenBThenC := by
  refine ⟨fun _ => rfl, fun line m tb tc b c hb hc => ?_⟩
  simp only [assembleTokens, mnemonicOfText_mnemonicText, hb, hc]

end Sys2Proof.Machine
end

section
/-! SUPPORT. The state in which a run starts (spec/10_state.md R34, spec/70_reset_and_hazards.md R170, R171):
its fields, and the invariants it meets. -/

namespace Sys2Proof.Machine

section Boot
variable (code : List Byte)

@[simp] theorem boot_mem : (boot code).mem = [] := rfl
@[simp] theorem boot_pc : (boot code).pc = 0 := rfl
@[simp] theorem boot_fault : (boot code).fault = none := rfl
@[simp] theorem boot_code : (boot code).code = code := rfl
@[simp] theorem boot_cell (a : Nat) : (boot code).cell a = 0 := rfl
@[simp] theorem boot_readReg (i : RegIx) : (boot code).readReg i = 0 := State.reset_readReg i

/-- A run is halted at once where the buffer is empty, and running otherwise (D3). -/
theorem boot_status : (boot code).status = if code.length = 0 then .halted else .running := by
  split
  · next h => exact (boot code).status_halted_iff.mpr ⟨rfl, h.le⟩
  · next h => exact (boot code).status_running_iff.mpr ⟨rfl, Nat.pos_of_ne_zero h⟩

end Boot

/-- Settles O1: the fields of the start state, one by one. -/
theorem resetClearsRegistersMemoryPcAndFault : Obligations.ResetClearsRegistersMemoryPcAndFault :=
  ⟨rfl, fun code => ⟨boot_readReg code, boot_cell code, boot_pc code, boot_fault code, boot_code code,
    boot_status code⟩⟩

/-- Restart keeps the code buffer only (R171). -/
theorem restart_eq_boot (s : State) : s.restart = boot s.code := rfl

/-- Settles O2: the state after restart is a function of the code buffer. -/
theorem restartDiscardsTheWholeState : Obligations.RestartDiscardsTheWholeState := by
  refine fun s => ⟨restart_eq_boot s, fun s' h => ?_⟩
  rw [restart_eq_boot, restart_eq_boot, h]

/-- A run starts with `pc` inside the buffer and no fault (R27). -/
theorem boot_pcInv (code : List Byte) : (boot code).PcInv where
  pc_le := Nat.zero_le _
  fault_at_pc _ h := nomatch h

/-- 0 is makeable: it is a constant (R112). -/
theorem makeable_zero : Makeable 0 := .inl (by decide)

/-- A run starts with makeable values only (R112). -/
theorem boot_valueInv (code : List Byte) : (boot code).ValueInv where
  regs_makeable i := by
    rw [boot_readReg]
    exact makeable_zero
  cells_makeable _ := makeable_zero

/-- Settles O27: the invariants of the start state one by one; `State.reset` is that of the empty buffer. -/
theorem invariantsHoldAtReset : Obligations.InvariantsHoldAtReset :=
  ⟨boot_pcInv [], State.reset_mem_wf, fun code =>
    ⟨boot_pcInv code, State.reset_mem_wf, fun a _ => boot_cell code a, boot_valueInv code⟩⟩

end Sys2Proof.Machine
end
